-- ==== Sys2Proof/Word.lean ====
section
/-! DEFINITION. The word and byte types of the block (00_scope.md section 4). -/

namespace Sys2Proof

/-- A byte of a buffer: 8 bits, unsigned. -/
abbrev Byte := BitVec 8

/-- A register word or a 32-bit bus datum. -/
abbrev Word := BitVec 32

end Sys2Proof
end

