-- ==== Sys2Proof/Config.lean ====
section
/-! DEFINITION. What an implementation of the block fixes (00_scope.md R1 to R3) and the values the spec leaves
open (93_implementation_defined.md I2, I10, I11). A constant with no body is a free value. -/

namespace Sys2Proof.Config

/-- The implementation parameters: IN_CAPACITY (R1), REG_BASE, IN_BASE and OUT_BASE (R3). -/
structure Params where
  capacity : Nat
  regBase : Nat
  inBase : Nat
  outBase : Nat
deriving DecidableEq, Repr, Inhabited

/-- The size of the register window in bytes (R3). -/
def regWindow : Nat := 64

/-- BLUR_MAX_RADIUS (R2). -/
def blurMaxRadius : Nat := 2

/-- The address ranges `[a, a + n)` and `[b, b + m)` do not meet. -/
def apart (a n b m : Nat) : Bool := decide (a + n ≤ b) || decide (b + m ≤ a)

/-- The values R1 and R3 allow: `30 <= IN_CAPACITY <= 2^32 - 1`, and three windows that do not overlap. -/
def Params.legal (p : Params) : Bool :=
  decide (30 ≤ p.capacity) && decide (p.capacity ≤ 2 ^ 32 - 1)
    && apart p.regBase regWindow p.inBase p.capacity
    && apart p.regBase regWindow p.outBase p.capacity
    && apart p.inBase p.capacity p.outBase p.capacity

/-- The parameters of the implementation, OPEN in the spec (R1, R3). Free value (log entry 1). -/
opaque rawParams : Params

/-- A legal choice that stands in where the free one is not legal. -/
def fallbackParams : Params := { capacity := 30, regBase := 0, inBase := 64, outBase := 128 }

/-- The parameters the state after reset has: any legal choice, whichever it is (log entry 1). -/
def params : Params := if rawParams.legal then rawParams else fallbackParams

/-- The any-value byte at an offset, one fresh function of the offset for each draw number (93 I2; 70 R211;
20 R53). Free value (log entries 2 and 3); that nothing but the two numbers enters is the model's choice (log
entry 18). -/
opaque freeByte : (draw : Nat) → (offset : Nat) → Byte

/-- The host steps that pass between a start and its completion, LATENCY - 1 (70 R214, R221). It may depend on the
command and the image, so it takes the whole snapshot: CMD, ARG, IN_LEN and the IN buffer, with the draw number that
gives IN's unwritten bytes. Free value (log entry 4); that nothing else enters is the model's choice (log entry 18). -/
opaque latencyExtra : (draw : Nat) → (cmd arg inLen : Word) → (input : List Host.Cell) → Nat

end Sys2Proof.Config
end

