-- ==== Sys2Proof/Syntax.lean ====
section
/-! DEFINITION. The commands of the block: one constructor for each row of the opcode table (30_encoding.md R73). -/

namespace Sys2Proof

/-- A command. READ_LE carries its byte count `n`, BLUR its radius `k` (30_encoding.md R72). -/
inductive Instr where
  | readLe (n : Nat)
  | parse
  | greyscale
  | sepia
  | invert
  | reflect
  | blur (k : Nat)
  | edge
deriving DecidableEq, Repr

/-- The PARAM operand of a command, 0 where it has none (30_encoding.md R72). -/
def Instr.param : Instr → Nat
  | .readLe n => n
  | .parse => 0
  | .greyscale => 0
  | .sepia => 0
  | .invert => 0
  | .reflect => 0
  | .blur k => k
  | .edge => 0

/-- The assembler form BLUR with no radius is BLUR 2 (30_encoding.md R79). -/
def Instr.blurDefault : Instr := .blur 2

end Sys2Proof
end

