-- ==== Sys2Proof/WellFormed.lean ====
section
/-! DEFINITION. Which commands have an encoding: the legal PARAM values of 30_encoding.md R72. -/

namespace Sys2Proof

/-- The counts READ_LE admits, 1 to 4 (30_encoding.md R72). -/
def legalCount (n : Nat) : Bool := decide (1 ≤ n) && decide (n ≤ 4)

/-- The radii BLUR admits, 0 to BLUR_MAX_RADIUS (00_scope.md R2). -/
def legalRadius (k : Nat) : Bool := decide (k ≤ Config.blurMaxRadius)

/-- A command with a legal PARAM. -/
def Instr.wellFormed : Instr → Bool
  | .readLe n => legalCount n
  | .parse => true
  | .greyscale => true
  | .sepia => true
  | .invert => true
  | .reflect => true
  | .blur k => legalRadius k
  | .edge => true

end Sys2Proof
end

