-- ==== Sys2Proof/Decode.lean ====
section
/-! DEFINITION. The command word (30_encoding.md R70 to R74): its fields, the total decoder with a name for every
rejection, the encoder, and the host's view of the decoder over opcode-table words. -/

namespace Sys2Proof

/-- OP, bits 3:0 (R70). -/
def opField (w : Word) : BitVec 4 := w.extractLsb' 0 4

/-- PARAM, bits 7:4 (R70). -/
def paramField (w : Word) : BitVec 4 := w.extractLsb' 4 4

/-- RSV, bits 31:8 (R70). -/
def rsvField (w : Word) : BitVec 24 := w.extractLsb' 8 24

/-- The five ways a CMD word is illegal, as R74 numbers them. -/
inductive Illegal where
  | reservedOp
  | reservedBits
  | badCount
  | badRadius
  | badParam
deriving DecidableEq, Repr

/-- A command without an operand: legal only with PARAM = 0 (R74 item 5). -/
def decodePlain (i : Instr) (param : Nat) : Except Illegal Instr :=
  if param = 0 then .ok i else .error .badParam

/-- The command of an operation code and its PARAM (R72, R73). -/
def decodeOp (op param : Nat) : Except Illegal Instr :=
  match op with
  | 1 => if legalCount param then .ok (.readLe param) else .error .badCount
  | 2 => decodePlain .parse param
  | 3 => decodePlain .greyscale param
  | 4 => decodePlain .sepia param
  | 5 => decodePlain .invert param
  | 6 => decodePlain .reflect param
  | 7 => if legalRadius param then .ok (.blur param) else .error .badRadius
  | 8 => decodePlain .edge param
  | _ => .error .reservedOp

/-- The command a CMD word stands for, or why it is illegal (R73, R74). No state enters (R77). -/
def decode (w : Word) : Except Illegal Instr :=
  if rsvField w = 0 then decodeOp (opField w).toNat (paramField w).toNat else .error .reservedBits

/-- The operation code of a command (R73). -/
def Instr.op : Instr → Nat
  | .readLe _ => 1
  | .parse => 2
  | .greyscale => 3
  | .sepia => 4
  | .invert => 5
  | .reflect => 6
  | .blur _ => 7
  | .edge => 8

/-- The CMD word of a command: `{RSV = 0, PARAM, OP}` (R70, R73). -/
def encode (i : Instr) : Word :=
  (0 : BitVec 24) ++ BitVec.ofNat 4 i.param ++ BitVec.ofNat 4 i.op

/-- An opcode-table word of `nbits` bits, as a command word; a command is never longer than 32 bits (R70). -/
def tableWord (nbits w : Nat) : Word := BitVec.ofNat 32 (w % 2 ^ nbits)

/-- The command the decoder reads from a table word. -/
def decodeTableWord (nbits w : Nat) : Option Instr :=
  if w % 2 ^ nbits < 2 ^ 32 then (decode (tableWord nbits w)).toOption else none

end Sys2Proof
end

