-- ==== Sys2Proof/Machine/State.lean ====
section
/-! DEFINITION. The state of the block and its host interface (10_state.md, 20_memory.md), as plain data, and the state
after reset (70_reset_and_hazards.md R210). -/

namespace Sys2Proof.Machine

open Sys2Proof.Config (Params)

/-- The error codes of 60_exceptions.md R180. Codes 8 to 15 are never reported and have no constructor. -/
inductive ErrorCode where
  | none
  | illegalCommand
  | lenRange
  | readRange
  | headerTruncated
  | badBitDepth
  | emptyGrid
  | bodyTruncated
deriving DecidableEq, Repr

/-- The three address spaces (20_memory.md R50). -/
inductive Space where
  | reg
  | input
  | output
deriving DecidableEq, Repr

/-- The widths a host access can ask for; a 16-bit access is always a bus error (20_memory.md R55). -/
inductive Width where
  | w8
  | w16
  | w32
deriving DecidableEq, Repr

/-- A host bus access, by window and offset (00_scope.md R3). A write carries its datum; an 8-bit write uses
bits 7:0 of it (log entry 8). -/
inductive Access where
  | read (space : Space) (width : Width) (off : Nat)
  | write (space : Space) (width : Width) (off : Nat) (value : Word)
deriving DecidableEq, Repr

/-- What the outside world can do next: an access by offset, an access by bus address (a read where there is no
datum), the two waits of a host program (30_encoding.md R79 POLL; 20_memory.md R62), or reset. -/
inductive HostEvent where
  | access (a : Access)
  | bus (width : Width) (addr : Nat) (value : Option Word)
  | poll
  | waitIrq
  | reset
deriving DecidableEq, Repr

/-- Why an access is a bus error (20_memory.md R55; `noWindow` is log entry 7). -/
inductive BusError where
  | misaligned
  | badWidth
  | outOfRange
  | noWindow
deriving DecidableEq, Repr

/-- What the bus answered to the host's last access. The model's own field. -/
inductive Response where
  | none
  | written
  | byte (value : Byte)
  | word (value : Word)
  | error (e : BusError)
deriving DecidableEq, Repr

/-- A buffer: the bytes stored in it, by offset, offsets rising. An offset not listed has no defined value
(70_reset_and_hazards.md R211). -/
abbrev Memory := List Host.Cell

/-- What a command computes from (10_state.md R24, R40): the operand registers and the IN bytes at its start step.
`draw` numbers the free draw of the IN bytes nobody has written (70_reset_and_hazards.md R211). -/
structure Snapshot where
  cmd : Word
  arg : Word
  inLen : Word
  input : Memory
  draw : Nat
deriving DecidableEq, Repr

/-- The command sequencer (10_state.md R21): IDLE, or BUSY with the running command's snapshot and the number of
steps that pass before its completion step (70_reset_and_hazards.md R214). -/
inductive Sequencer where
  | idle
  | busy (snap : Snapshot) (wait : Nat)
deriving DecidableEq, Repr

/-- Everything the spec gives the block, and the model's own `response`, `pending` and `draws` (INVENTORY.md). -/
structure State where
  /-- IN_CAPACITY and the window bases; no step changes them. -/
  params : Params
  seq : Sequencer
  /-- CTRL.IE -/
  ie : Bool
  /-- STATUS.DONE -/
  done : Bool
  /-- STATUS.ERR -/
  err : Bool
  cmd : Word
  arg : Word
  inLen : Word
  errcode : ErrorCode
  result : Word
  dataOffset : Word
  width : Word
  height : Word
  bitDepth : BitVec 16
  bpp : BitVec 3
  outLen : Word
  /-- The IN buffer. -/
  input : Memory
  /-- The OUT buffer. -/
  output : Memory
  response : Response
  /-- The host's pending events, first to happen first. -/
  pending : List HostEvent
  /-- How many free values have been drawn. -/
  draws : Nat
deriving DecidableEq, Repr

/-- A host access that fails (20_memory.md R55: a model treats a bus error as a fault of the host access). -/
inductive Fault where
  /-- Raised by `hostAccess` for an access R55 names. The step answers it on the bus and the block goes on
  (60_exceptions.md R187), so no step ends in it. Safe: the access has no effect in the spec either. -/
  | busError (e : BusError)
deriving DecidableEq, Repr

/-- Why a command has no meaning. -/
inductive Refusal where
  /-- Raised by an arm of `exec` whose command has no meaning yet (none now). Safe: the model stops. -/
  | notModelled (mnemonic : String)
deriving DecidableEq, Repr

/-- The state reset leaves, for given parameters, pending host events and draws taken
(70_reset_and_hazards.md R210, R211). -/
def State.resetWith (p : Params) (pending : List HostEvent) (draws : Nat) : State :=
  { params := p, seq := .idle, ie := false, done := false, err := false, cmd := 0, arg := 0, inLen := 0,
    errcode := .none, result := 0, dataOffset := 0, width := 0, height := 0, bitDepth := 0, bpp := 0, outLen := 0,
    input := [], output := [], response := .none, pending := pending, draws := draws }

/-- The block right after reset, with no host event pending (70_reset_and_hazards.md R210; log entry 12). -/
def State.reset : State := State.resetWith Config.params [] 0

end Sys2Proof.Machine
end

