-- ==== Sys2Proof/Machine/Flags.lean ====
section
/-! DEFINITION. The status flags (10_state.md R23 to R27), the flags a completion sets (70_reset_and_hazards.md R214)
and the interrupt line (60_exceptions.md R190). -/

namespace Sys2Proof.Machine

/-- `BUSY = 1` exactly when the phase is BUSY (10_state.md R26). -/
def State.isBusy (s : State) : Bool :=
  match s.seq with
  | .idle => false
  | .busy _ _ => true

/-- STATUS as the host reads it (10_state.md R26). -/
def statusWord (s : State) : Word :=
  (0 : BitVec 29) ++ BitVec.ofBool s.err ++ BitVec.ofBool s.done ++ BitVec.ofBool s.isBusy

/-- CTRL as the host reads it: START reads 0 (10_state.md R23). -/
def ctrlWord (s : State) : Word :=
  (0 : BitVec 30) ++ BitVec.ofBool s.ie ++ (0 : BitVec 1)

/-- The W1C write of STATUS: a 1 in bit 1 clears DONE, a 1 in bit 2 clears ERR (10_state.md R27). -/
def clearStatus (v : Word) (s : State) : State :=
  { s with done := s.done && !v.getLsbD 1, err := s.err && !v.getLsbD 2 }

/-- The flags a completion with `code` sets: DONE, and ERR where the code is not NONE (70_reset_and_hazards.md R214). -/
def completionFlags (code : ErrorCode) (s : State) : State :=
  { s with done := true, err := decide (code ≠ .none) }

/-- The level interrupt output (60_exceptions.md R190). -/
def irq (s : State) : Bool := s.ie && s.done

end Sys2Proof.Machine
end

