-- ==== Sys2Proof/Machine/Ops.lean ====
section
/-! DEFINITION. The operations over memory (20_memory.md R51, R56) and over the sequencer: starting a command
(10_state.md R24), completing one with or without an error (60_exceptions.md R183; 70_reset_and_hazards.md R214), and
reset (70_reset_and_hazards.md R210 to R212). -/

namespace Sys2Proof.Machine

/-! ### Buffers -/

/-- The byte stored at an offset, if one is (20_memory.md R52, R53). -/
def Memory.read : Memory → Nat → Option Byte
  | [], _ => none
  | (k, b) :: m, a => if k = a then some b else Memory.read m a

/-- Store the byte `v` at offset `a` (MemWrite, 20_memory.md R51); the list stays in rising order. -/
def Memory.write : Memory → Nat → Byte → Memory
  | [], a, v => [(a, v)]
  | (k, b) :: m, a, v =>
    if a < k then (a, v) :: (k, b) :: m
    else if a = k then (a, v) :: m
    else (k, b) :: Memory.write m a v

/-- Store the bytes of a list at `a`, `a + 1`, and so on, one byte at a time (20_memory.md R51, R60). -/
def Memory.writeBytes : Memory → Nat → List Byte → Memory
  | m, _, [] => m
  | m, a, b :: bs => Memory.writeBytes (m.write a b) (a + 1) bs

/-- The offsets rise strictly, from `lo` on. -/
def Memory.risingFrom : Nat → Memory → Bool
  | _, [] => true
  | lo, (k, _) :: m => decide (lo ≤ k) && Memory.risingFrom (k + 1) m

/-- The canonical form. No entry can equal what an unlisted offset reads as, which is no value at all. -/
def Memory.wf (m : Memory) : Bool := Memory.risingFrom 0 m

/-- Every stored byte lies below `n`. -/
def Memory.below (n : Nat) (m : Memory) : Bool := m.all fun c => decide (c.1 < n)

/-- The byte a read gives: the stored one, else the draw's any-value byte (93_implementation_defined.md I2). -/
def Memory.byteOr (m : Memory) (draw a : Nat) : Byte :=
  (m.read a).getD (Config.freeByte draw a)

/-- Byte `i` of a word: byte 0 is bits 7:0 (20_memory.md R56). -/
def wordByte (v : Word) (i : Nat) : Byte := v.extractLsb' (8 * i) 8

/-- The four bytes of a word in offset order (20_memory.md R56). -/
def wordBytes (v : Word) : List Byte := [wordByte v 0, wordByte v 1, wordByte v 2, wordByte v 3]

/-- The word of four bytes in offset order (20_memory.md R56). -/
def joinBytes (b0 b1 b2 b3 : Byte) : Word := b3 ++ b2 ++ b1 ++ b0

/-! ### The operands of a command -/

/-- The live operand registers and IN buffer, as a start step takes them (10_state.md R24). -/
def takeSnapshot (s : State) : Snapshot :=
  { cmd := s.cmd, arg := s.arg, inLen := s.inLen, input := s.input, draw := s.draws }

/-- What a command computes from: the running command's snapshot (10_state.md R40), the live values where none runs
(log entry 10). -/
def State.operands (s : State) : Snapshot :=
  match s.seq with
  | .idle => takeSnapshot s
  | .busy snap _ => snap

/-! ### Start, completion, reset -/

/-- The start step (10_state.md R24), with `wait` steps to pass before the completion step. -/
def startWith (wait : Nat) (s : State) : State :=
  { s with seq := .busy (takeSnapshot s) wait, done := false, err := false, draws := s.draws + 1 }

/-- The start step with the open LATENCY, a free number for each start and each snapshot (70_reset_and_hazards.md R214,
R221; log entries 4 and 18). -/
def startCommand (s : State) : State :=
  startWith (Config.latencyExtra s.draws s.cmd s.arg s.inLen s.input) s

/-- What every completion does: the phase to IDLE, the flags, the code (70_reset_and_hazards.md R214). -/
def complete (code : ErrorCode) (s : State) : State :=
  { completionFlags code s with seq := .idle, errcode := code }

/-- `raise Error(code)`: the command completes with the code and changes nothing else (60_exceptions.md R183). The
block has no traps and nothing returns from one: the next start follows (60_exceptions.md R185, R186). -/
def raiseError (code : ErrorCode) (s : State) : State := complete code s

/-- One step passes while a command runs (70_reset_and_hazards.md R221). -/
def tick (s : State) : State :=
  match s.seq with
  | .busy snap (wait + 1) => { s with seq := .busy snap wait }
  | .busy _ 0 => s
  | .idle => s

/-- Reset: every register to its reset value, both buffers undefined, a running command abandoned
(70_reset_and_hazards.md R210 to R212). -/
def takeReset (s : State) : State := State.resetWith s.params s.pending s.draws

end Sys2Proof.Machine
end

