-- ==== Sys2Proof/Machine/Bus.lean ====
section
/-! DEFINITION. Host accesses (10_state.md section 2 and 3; 20_memory.md section 2): bus errors, reads and writes of
the register window and of the two buffers, and the windows' places on the bus (00_scope.md R3). -/

namespace Sys2Proof.Machine

/-! ### The register window -/

/-- The sixteen registers, in offset order (10_state.md R22). -/
inductive Reg where
  | ctrl | status | cmd | arg | inLen | errcode | result | dataOffset
  | width | height | bitDepth | bpp | outLen | capacity | reserved38 | reserved3C
deriving DecidableEq, Repr

/-- The register at a word offset of the window (10_state.md R22). -/
def regAt (off : Nat) : Reg :=
  match off / 4 with
  | 0 => .ctrl
  | 1 => .status
  | 2 => .cmd
  | 3 => .arg
  | 4 => .inLen
  | 5 => .errcode
  | 6 => .result
  | 7 => .dataOffset
  | 8 => .width
  | 9 => .height
  | 10 => .bitDepth
  | 11 => .bpp
  | 12 => .outLen
  | 13 => .capacity
  | 14 => .reserved38
  | _ => .reserved3C

/-- The offset of a register (10_state.md R22). -/
def regOffset : Reg → Nat
  | .ctrl => 0x00
  | .status => 0x04
  | .cmd => 0x08
  | .arg => 0x0C
  | .inLen => 0x10
  | .errcode => 0x14
  | .result => 0x18
  | .dataOffset => 0x1C
  | .width => 0x20
  | .height => 0x24
  | .bitDepth => 0x28
  | .bpp => 0x2C
  | .outLen => 0x30
  | .capacity => 0x34
  | .reserved38 => 0x38
  | .reserved3C => 0x3C

/-- The number of an error code (60_exceptions.md R180). -/
def codeNumber : ErrorCode → BitVec 4
  | .none => 0
  | .illegalCommand => 1
  | .lenRange => 2
  | .readRange => 3
  | .headerTruncated => 4
  | .badBitDepth => 5
  | .emptyGrid => 6
  | .bodyTruncated => 7

/-- What a register reads as; unused bits read 0 (10_state.md R23 to R37). -/
def readReg (s : State) : Reg → Word
  | .ctrl => ctrlWord s
  | .status => statusWord s
  | .cmd => s.cmd
  | .arg => s.arg
  | .inLen => s.inLen
  | .errcode => (codeNumber s.errcode).setWidth 32
  | .result => s.result
  | .dataOffset => s.dataOffset
  | .width => s.width
  | .height => s.height
  | .bitDepth => s.bitDepth.setWidth 32
  | .bpp => s.bpp.setWidth 32
  | .outLen => s.outLen
  | .capacity => BitVec.ofNat 32 s.params.capacity
  | .reserved38 => 0
  | .reserved3C => 0

/-- A write of CTRL: IE takes bit 1, and bit 0 starts the command in CMD unless one runs (10_state.md R24, R25). -/
def writeCtrl (v : Word) (s : State) : State :=
  if v.getLsbD 0 && !s.isBusy then startCommand { s with ie := v.getLsbD 1 } else { s with ie := v.getLsbD 1 }

/-- A write that is ignored while a command runs (10_state.md R39). -/
def whenIdle (s t : State) : State := if s.isBusy then s else t

/-- A write of a register; read-only and reserved ones ignore it (10_state.md R24 to R30, R37 to R39). -/
def writeReg (v : Word) (s : State) : Reg → State
  | .ctrl => writeCtrl v s
  | .status => clearStatus v s
  | .cmd => whenIdle s { s with cmd := v }
  | .arg => whenIdle s { s with arg := v }
  | .inLen => whenIdle s { s with inLen := v }
  | .errcode => s
  | .result => s
  | .dataOffset => s
  | .width => s
  | .height => s
  | .bitDepth => s
  | .bpp => s
  | .outLen => s
  | .capacity => s
  | .reserved38 => s
  | .reserved3C => s

/-! ### The buffers -/

/-- A byte of IN as the host reads it: the byte written, else any value (20_memory.md R52; log entry 2). -/
def inByte (s : State) (a : Nat) : Byte := s.input.byteOr s.draws a

/-- A byte of OUT as the host reads it: the byte stored there, where the phase is IDLE and the offset is below
OUT_LEN; any value elsewhere (20_memory.md R53; log entry 3). -/
def outByte (s : State) (a : Nat) : Byte :=
  if !s.isBusy && decide (a < s.outLen.toNat) then s.output.byteOr s.draws a else Config.freeByte s.draws a

/-- A host write of bytes to IN, ignored while a command runs (10_state.md R39; 20_memory.md R52). -/
def writeInput (a : Nat) (bytes : List Byte) (s : State) : State :=
  whenIdle s { s with input := s.input.writeBytes a bytes }

/-! ### Accesses -/

/-- The bus answers (the model's own field). -/
def respond (r : Response) (s : State) : State := { s with response := r }

/-- The bus answers a read of a buffer: one draw is taken for whichever bytes are any value
(93_implementation_defined.md I2). -/
def respondDrawn (r : Response) (s : State) : State := { s with response := r, draws := s.draws + 1 }

/-- A 32-bit or 8-bit access of a buffer of `capacity` bytes, or why it is a bus error (20_memory.md R52, R55). -/
def bufferError (capacity : Nat) (width : Width) (off : Nat) : Option BusError :=
  match width with
  | .w8 => if off < capacity then none else some .outOfRange
  | .w16 => some .badWidth
  | .w32 => if off % 4 ≠ 0 then some .misaligned else if off + 4 ≤ capacity then none else some .outOfRange

/-- An access of the register window, or why it is a bus error (20_memory.md R54, R55; log entry 6). -/
def regError (width : Width) (off : Nat) : Option BusError :=
  match width with
  | .w8 => some .badWidth
  | .w16 => some .badWidth
  | .w32 => if off % 4 ≠ 0 then some .misaligned else if off < Config.regWindow then none else some .outOfRange

/-- Why an access is a bus error, if it is one (20_memory.md R55). -/
def busError (capacity : Nat) (space : Space) (width : Width) (off : Nat) : Option BusError :=
  match space with
  | .reg => regError width off
  | .input => bufferError capacity width off
  | .output => bufferError capacity width off

/-- A read that is no bus error (20_memory.md R52 to R54, R56). -/
def performRead (space : Space) (width : Width) (off : Nat) (s : State) : State :=
  match space, width with
  | .reg, _ => respond (.word (readReg s (regAt off))) s
  | .input, .w32 =>
    respondDrawn (.word (joinBytes (inByte s off) (inByte s (off + 1)) (inByte s (off + 2)) (inByte s (off + 3)))) s
  | .input, _ => respondDrawn (.byte (inByte s off)) s
  | .output, .w32 =>
    respondDrawn (.word (joinBytes (outByte s off) (outByte s (off + 1)) (outByte s (off + 2)) (outByte s (off + 3)))) s
  | .output, _ => respondDrawn (.byte (outByte s off)) s

/-- A write that is no bus error; OUT ignores it (20_memory.md R52 to R54, R56). -/
def performWrite (space : Space) (width : Width) (off : Nat) (v : Word) (s : State) : State :=
  match space, width with
  | .reg, _ => respond .written (writeReg v s (regAt off))
  | .input, .w32 => respond .written (writeInput off (wordBytes v) s)
  | .input, _ => respond .written (writeInput off [wordByte v 0] s)
  | .output, _ => respond .written s

/-- A host access: its effect and the bus answer, or the fault of the access (20_memory.md R55). -/
def hostAccess (a : Access) (s : State) : Except Fault State :=
  match a with
  | .read space width off =>
    match busError s.params.capacity space width off with
    | some e => .error (.busError e)
    | none => .ok (performRead space width off s)
  | .write space width off v =>
    match busError s.params.capacity space width off with
    | some e => .error (.busError e)
    | none => .ok (performWrite space width off v s)

/-- The access in the machine: a bus error is answered on the bus and nothing else happens (60_exceptions.md R187;
log entry 5). -/
def answerAccess (a : Access) (s : State) : State :=
  match hostAccess a s with
  | .ok t => t
  | .error (.busError e) => respond (.error e) s

/-! ### The windows on the bus -/

/-- The base address of a window (00_scope.md R3). -/
def windowBase (p : Config.Params) : Space → Nat
  | .reg => p.regBase
  | .input => p.inBase
  | .output => p.outBase

/-- The size of a window in bytes (00_scope.md R3). -/
def windowSize (p : Config.Params) : Space → Nat
  | .reg => Config.regWindow
  | .input => p.capacity
  | .output => p.capacity

/-- The address lies in the window. -/
def inWindow (p : Config.Params) (space : Space) (addr : Nat) : Bool :=
  decide (windowBase p space ≤ addr) && decide (addr < windowBase p space + windowSize p space)

/-- The window and the offset in it that a bus address names, if any window holds it (00_scope.md R3). -/
def locate (p : Config.Params) (addr : Nat) : Option (Space × Nat) :=
  if inWindow p .reg addr then some (.reg, addr - p.regBase)
  else if inWindow p .input addr then some (.input, addr - p.inBase)
  else if inWindow p .output addr then some (.output, addr - p.outBase)
  else none

/-- An access by bus address: the access of the window that holds it, or a bus error (log entry 7). -/
def busAccess (width : Width) (addr : Nat) (value : Option Word) (s : State) : State :=
  match locate s.params addr, value with
  | some (space, off), some v => answerAccess (.write space width off v) s
  | some (space, off), none => answerAccess (.read space width off) s
  | none, _ => respond (.error .noWindow) s

end Sys2Proof.Machine
end

