-- ==== Sys2Proof/Machine/Operands.lean ====
section
/-! DEFINITION. The operand forms: little-endian fields of IN (00_scope.md R10), the header and its validation
(40_extract_and_codec.md R104 to R109), pixel channels (00_scope.md R14), and the arithmetic primitives R11 and R12. -/

namespace Sys2Proof.Machine

/-- `IN[a]` of the snapshot (20_memory.md R51). -/
def Snapshot.byte (sn : Snapshot) (a : Nat) : Byte := sn.input.byteOr sn.draw a

/-- `le(a, n)`, the sum of `IN[a+i] * 256^i` over `i < n` (00_scope.md R10). -/
def le (sn : Snapshot) (a : Nat) : Nat → Nat
  | 0 => 0
  | n + 1 => le sn a n + (sn.byte (a + n)).toNat * 256 ^ n

/-- `clamp255` (00_scope.md R11). -/
def clamp255 (x : Nat) : Nat := min x 255

/-- The largest `m < 2^bits` with `m * m <= N`, found bit by bit from `m`'s known high part `hi`. -/
def isqrtBits (N : Nat) : (bits hi : Nat) → Nat
  | 0, hi => hi
  | bits + 1, hi =>
    if (hi + 2 ^ bits) * (hi + 2 ^ bits) ≤ N then isqrtBits N bits (hi + 2 ^ bits) else isqrtBits N bits hi

/-- `isqrt`, the largest `m` with `m * m <= N` (00_scope.md R12). -/
def isqrt (N : Nat) : Nat := isqrtBits N (N.log2 / 2 + 1) 0

/-- The header values `D, W, H, BD` of an image; `P = BD div 8` (40_extract_and_codec.md R105, R106, R108). -/
structure Header where
  dataOffset : Nat
  width : Nat
  height : Nat
  bitDepth : Nat
deriving DecidableEq, Repr

/-- `P`, the bytes per pixel (40_extract_and_codec.md R108). -/
def bytesPerPixel (h : Header) : Nat := h.bitDepth / 8

/-- The size of the pixel grid, `W * H * P`, exact (40_extract_and_codec.md R109). -/
def gridBytes (h : Header) : Nat := h.width * h.height * bytesPerPixel h

/-- The header fields as IN holds them (40_extract_and_codec.md R105, R106). -/
def readHeader (sn : Snapshot) : Header :=
  { dataOffset := le sn 10 4, width := le sn 18 4, height := le sn 22 4, bitDepth := le sn 28 2 }

/-- The validation sequence V1 to V5 for an image of `length` bytes with the header fields `h`
(40_extract_and_codec.md R107). -/
def checkHeader (length : Nat) (h : Header) : Except ErrorCode Header :=
  if length < 30 then .error .headerTruncated
  else if h.dataOffset < 30 ∨ length < h.dataOffset then .error .headerTruncated
  else if h.bitDepth ≠ 24 ∧ h.bitDepth ≠ 32 then .error .badBitDepth
  else if h.width = 0 ∨ h.height = 0 then .error .emptyGrid
  else if length - h.dataOffset < gridBytes h then .error .bodyTruncated
  else .ok h

/-- The validation sequence on the header fields IN holds; none is used where the length is below 30
(40_extract_and_codec.md R107; 60_exceptions.md R182). -/
def validate (sn : Snapshot) : Except ErrorCode Header := checkHeader sn.inLen.toNat (readHeader sn)

/-- The checks of PARSE and of every image command after the illegal-command check: LEN_RANGE, then the validation
sequence (40_extract_and_codec.md R104, R112; 60_exceptions.md R182). -/
def checkImage (capacity : Nat) (sn : Snapshot) : Except ErrorCode Header :=
  if capacity < sn.inLen.toNat then .error .lenRange else validate sn

/-- The offset of channel `ch` of pixel `(r, c)` (00_scope.md R14; 40_extract_and_codec.md R110). -/
def pixelOffset (h : Header) (r c ch : Nat) : Nat :=
  h.dataOffset + (r * h.width + c) * bytesPerPixel h + ch

/-- `px(r, c, ch)` (00_scope.md R14). -/
def px (sn : Snapshot) (h : Header) (r c ch : Nat) : Nat := (sn.byte (pixelOffset h r c ch)).toNat

end Sys2Proof.Machine
end

