-- ==== Sys2Proof/Machine/Frame.lean ====
section
/-! DEFINITION. The frame every image command runs in (40_extract_and_codec.md R111 to R113, R115): checks, packing
into OUT, header registers. -/

namespace Sys2Proof.Machine

/-- What an image command's own rule gives: the output byte's value for pixel `(r, c)` channel `ch`, from the
snapshot and the header. -/
abbrev Channel := Snapshot → Header → (r c ch : Nat) → Nat

/-- The alpha default: channel 3 passes through, the others follow the rule (40_extract_and_codec.md R115). -/
def keepAlpha (f : Channel) : Channel := fun sn h r c ch =>
  if ch = 3 then px sn h r c 3 else f sn h r c ch

/-- The byte of OUT at offset `a`: the header and the trailing bytes verbatim, and between them the grid's channel
byte at `D + (r*W + c)*P + ch` (40_extract_and_codec.md R111). -/
def packedByte (f : Channel) (sn : Snapshot) (h : Header) (a : Nat) : Byte :=
  if a < h.dataOffset then sn.byte a
  else if a - h.dataOffset < gridBytes h then
    BitVec.ofNat 8 (f sn h ((a - h.dataOffset) / bytesPerPixel h / h.width)
      ((a - h.dataOffset) / bytesPerPixel h % h.width) ((a - h.dataOffset) % bytesPerPixel h))
  else sn.byte a

/-- The `L` bytes of the output (40_extract_and_codec.md R111). -/
def packedImage (f : Channel) (sn : Snapshot) (h : Header) : List Byte :=
  (List.range sn.inLen.toNat).map (packedByte f sn h)

/-- Write OUT and OUT_LEN (40_extract_and_codec.md R111). -/
def storeImage (f : Channel) (sn : Snapshot) (h : Header) (s : State) : State :=
  { s with output := s.output.writeBytes 0 (packedImage f sn h), outLen := sn.inLen }

/-- Write the header registers (40_extract_and_codec.md R113). -/
def commitHeader (h : Header) (s : State) : State :=
  { s with dataOffset := BitVec.ofNat 32 h.dataOffset, width := BitVec.ofNat 32 h.width,
           height := BitVec.ofNat 32 h.height, bitDepth := BitVec.ofNat 16 h.bitDepth,
           bpp := BitVec.ofNat 3 (bytesPerPixel h) }

/-- The image-command frame, committed as one step (40_extract_and_codec.md R112; 10_state.md R41). -/
def imageCommand (f : Channel) (s : State) : Host.Outcome State Fault Refusal :=
  match checkImage s.params.capacity s.operands with
  | .error code => .next (raiseError code s)
  | .ok h => .next (complete .none (commitHeader h (storeImage f s.operands h s)))

end Sys2Proof.Machine
end

