-- ==== Sys2Proof/Machine/Extract.lean ====
section
/-! DEFINITION. READ_LE and PARSE (40_extract_and_codec.md R100, R114). -/

namespace Sys2Proof.Machine

/-- READ_LE n (40_extract_and_codec.md R100 to R102, R104). -/
def execReadLe (n : Nat) (s : State) : Host.Outcome State Fault Refusal :=
  if legalCount n = false then .next (raiseError .illegalCommand s)
  else if s.params.capacity < s.operands.inLen.toNat then .next (raiseError .lenRange s)
  else if s.operands.inLen.toNat < s.operands.arg.toNat + n then .next (raiseError .readRange s)
  else .next (complete .none { s with result := BitVec.ofNat 32 (le s.operands s.operands.arg.toNat n) })

/-- PARSE (40_extract_and_codec.md R114). -/
def execParse (s : State) : Host.Outcome State Fault Refusal :=
  match checkImage s.params.capacity s.operands with
  | .error code => .next (raiseError code s)
  | .ok h => .next (complete .none (commitHeader h s))

end Sys2Proof.Machine
end

