-- ==== Sys2Proof/Machine/Neighborhood.lean ====
section
/-! DEFINITION. The neighbourhood operations (42_neighborhood_ops.md). -/

namespace Sys2Proof.Machine

/-- The sum of `f lo, f (lo + 1), …` over `n` terms. -/
def sumFrom (f : Nat → Nat) (lo : Nat) : Nat → Nat
  | 0 => 0
  | n + 1 => sumFrom f lo n + f (lo + n)

/-- The first position of a window of radius `k` around `x`, clipped: `max(0, x - k)` (42_neighborhood_ops.md R150). -/
def windowLo (x k : Nat) : Nat := x - k

/-- The number of positions of that window in an image of `size` positions, from `max(0, x - k)` to
`min(size - 1, x + k)` (42_neighborhood_ops.md R151). -/
def windowLen (x k size : Nat) : Nat := min (size - 1) (x + k) - windowLo x k + 1

/-- The count `n` of BLUR's window (42_neighborhood_ops.md R151). -/
def windowCount (h : Header) (k r c : Nat) : Nat := windowLen r k h.height * windowLen c k h.width

/-- The sum `s` over BLUR's window of one channel (42_neighborhood_ops.md R150). -/
def windowSum (k : Nat) : Channel := fun sn h r c ch =>
  sumFrom (fun i => sumFrom (fun j => px sn h i j ch) (windowLo c k) (windowLen c k h.width))
    (windowLo r k) (windowLen r k h.height)

/-- BLUR's colour channels: the floor of the average (42_neighborhood_ops.md R150). -/
def blurChannel (k : Nat) : Channel := fun sn h r c ch => windowSum k sn h r c ch / windowCount h k r c

/-- BLUR k (42_neighborhood_ops.md R150); a radius above 2 is an illegal command (00_scope.md R2). -/
def execBlur (k : Nat) (s : State) : Host.Outcome State Fault Refusal :=
  if legalRadius k then imageCommand (keepAlpha (blurChannel k)) s
  else .next (raiseError .illegalCommand s)

/-- `KX[dx+1][dy+1]` (42_neighborhood_ops.md R155). -/
def kernelX : List (List Int) := [[-1, 0, 1], [-2, 0, 2], [-1, 0, 1]]

/-- `KY[dx+1][dy+1]` (42_neighborhood_ops.md R155). -/
def kernelY : List (List Int) := [[-1, -2, -1], [0, 0, 0], [1, 2, 1]]

/-- The entry of a kernel in row `i`, column `j`. -/
def kernelAt (kernel : List (List Int)) (i j : Nat) : Int := (kernel.getD i []).getD j 0

/-- `s(i, j, ch)`: the pixel's channel inside the image, 0 outside (42_neighborhood_ops.md R155, R157). -/
def edgeSample (sn : Snapshot) (h : Header) (i j : Int) (ch : Nat) : Int :=
  if 0 ≤ i ∧ i < h.height ∧ 0 ≤ j ∧ j < h.width then (px sn h i.toNat j.toNat ch : Int) else 0

/-- The sum over `dx, dy` in -1 .. 1 of the kernel's entry times the sample at `(r+dx, c+dy)`; `i` is `dx + 1`, `j` is
`dy + 1` (42_neighborhood_ops.md R155, R156). -/
def sobelGradient (kernel : List (List Int)) (sn : Snapshot) (h : Header) (r c ch : Nat) : Int :=
  ((List.range 3).map fun i => ((List.range 3).map fun j =>
    kernelAt kernel i j * edgeSample sn h ((r : Int) + i - 1) ((c : Int) + j - 1) ch).sum).sum

/-- The clamped magnitude of a gradient (42_neighborhood_ops.md R158). -/
def magnitude (gx gy : Int) : Nat := clamp255 (isqrt (gx * gx + gy * gy).toNat)

/-- EDGE's colour channels (42_neighborhood_ops.md R155). -/
def edgeChannel : Channel := fun sn h r c ch =>
  magnitude (sobelGradient kernelX sn h r c ch) (sobelGradient kernelY sn h r c ch)

/-- EDGE (42_neighborhood_ops.md R155, R159). -/
def execEdge (s : State) : Host.Outcome State Fault Refusal :=
  imageCommand (keepAlpha edgeChannel) s

end Sys2Proof.Machine
end

