-- ==== Sys2Proof/Machine/Point.lean ====
section
/-! DEFINITION. The point operations (41_point_ops.md). -/

namespace Sys2Proof.Machine

/-- The rounded average of three channels, `(S + 1) div 3` (41_point_ops.md R130). -/
def greyValue (b g r : Nat) : Nat := (b + g + r + 1) / 3

/-- GREYSCALE's colour channels (41_point_ops.md R130). -/
def greyscaleChannel : Channel := fun sn h r c _ =>
  greyValue (px sn h r c 0) (px sn h r c 1) (px sn h r c 2)

/-- GREYSCALE (41_point_ops.md R130). -/
def execGreyscale (s : State) : Host.Outcome State Fault Refusal :=
  imageCommand (keepAlpha greyscaleChannel) s

/-- SEPIA's weighted sum for an output channel, scaled by 1000: `sB`, `sG` or `sR` (41_point_ops.md R132). -/
def sepiaSum (b g r : Nat) : (ch : Nat) → Nat
  | 0 => 272 * r + 534 * g + 131 * b
  | 1 => 349 * r + 686 * g + 168 * b
  | _ => 393 * r + 769 * g + 189 * b

/-- SEPIA's output value: the sum rounded to nearest, ties up, clamped (41_point_ops.md R132). -/
def sepiaValue (b g r ch : Nat) : Nat := clamp255 ((sepiaSum b g r ch + 500) / 1000)

/-- SEPIA's colour channels (41_point_ops.md R132). -/
def sepiaChannel : Channel := fun sn h r c ch =>
  sepiaValue (px sn h r c 0) (px sn h r c 1) (px sn h r c 2) ch

/-- SEPIA (41_point_ops.md R132). -/
def execSepia (s : State) : Host.Outcome State Fault Refusal :=
  imageCommand (keepAlpha sepiaChannel) s

/-- INVERT's colour channels (41_point_ops.md R134). -/
def invertChannel : Channel := fun sn h r c ch => 255 - px sn h r c ch

/-- INVERT (41_point_ops.md R134). -/
def execInvert (s : State) : Host.Outcome State Fault Refusal :=
  imageCommand (keepAlpha invertChannel) s

/-- REFLECT's channels, alpha included: the pixel mirrored in its row (41_point_ops.md R136, R137). -/
def reflectChannel : Channel := fun sn h r c ch => px sn h r (h.width - 1 - c) ch

/-- REFLECT (41_point_ops.md R136). -/
def execReflect (s : State) : Host.Outcome State Fault Refusal :=
  imageCommand reflectChannel s

end Sys2Proof.Machine
end

