-- ==== Sys2Proof/Machine/Dispatch.lean ====
section
/-! DEFINITION. The meaning of each command: its completion step (70_reset_and_hazards.md R214; log entry 10). -/

namespace Sys2Proof.Machine

def exec (i : Instr) (s : State) : Host.Outcome State Fault Refusal :=
  match i with
  | .readLe n => Sys2Proof.Machine.execReadLe n s
  | .parse => Sys2Proof.Machine.execParse s
  | .greyscale => Sys2Proof.Machine.execGreyscale s
  | .sepia => Sys2Proof.Machine.execSepia s
  | .invert => Sys2Proof.Machine.execInvert s
  | .reflect => Sys2Proof.Machine.execReflect s
  | .blur k => Sys2Proof.Machine.execBlur k s
  | .edge => Sys2Proof.Machine.execEdge s

end Sys2Proof.Machine
end

