-- ==== Sys2Proof/Machine/Sequencer.lean ====
section
/-! DEFINITION. How the block and its host take turns (10_state.md R21; 20_memory.md R61; 60_exceptions.md R192;
70_reset_and_hazards.md R214; log entry 13), and a command placed from outside (log entry 11). -/

namespace Sys2Proof.Machine

/-- The completion step of the running command: the meaning of the word in the snapshot, ILLEGAL_COMMAND where it has
none (20_memory.md R63; 60_exceptions.md R181). -/
def completionStep (w : Word) (s : State) : Host.Outcome State Fault Refusal :=
  match decode w with
  | .ok i => exec i s
  | .error _ => .next (raiseError .illegalCommand s)

/-- The host's next event takes effect. A wait stays pending until what it waits for holds: POLL reads STATUS until
BUSY reads 0 (30_encoding.md R79), the interrupt wait watches `irq` (20_memory.md R62). -/
def hostEvent (e : HostEvent) (rest : List HostEvent) (s : State) : State :=
  match e with
  | .access a => answerAccess a { s with pending := rest }
  | .bus width addr value => busAccess width addr value { s with pending := rest }
  | .poll =>
    answerAccess (.read .reg .w32 (regOffset .status)) { s with pending := if s.isBusy then e :: rest else rest }
  | .waitIrq => { s with pending := if irq s then rest else e :: rest }
  | .reset => takeReset { s with pending := rest }

/-- One step. A pending reset goes before everything (60_exceptions.md R192); then a command whose time has come
completes; then the host's next event takes effect, or, with none pending, time passes. -/
def advance (s : State) : Host.Outcome State Fault Refusal :=
  match s.pending, s.seq with
  | .reset :: rest, _ => .next (takeReset { s with pending := rest })
  | _, .busy snap 0 => completionStep snap.cmd s
  | [], _ => .next (tick s)
  | e :: rest, _ => .next (hostEvent e rest (tick s))

/-- The resets that would go before the next completion are no longer pending. -/
def dropResets : List HostEvent → List HostEvent
  | .reset :: rest => dropResets rest
  | events => events

/-- The block as a host leaves it that wrote the command word and started it, all waiting over: the next step is the
word's completion step (log entry 11). -/
def loadCommand (w : Word) (s : State) : State :=
  startWith 0 { s with cmd := w, pending := dropResets s.pending }

end Sys2Proof.Machine
end

