-- ==== Sys2Proof/Machine/Step.lean ====
section
/-! DEFINITION. One step of the block with its host, and the placing of a command for the next step. -/

namespace Sys2Proof.Machine

/-- One step (`advance`): reset, completion, or the host's next event. -/
def step (s : State) : Host.Outcome State Fault Refusal := advance s

/-- The state whose next step runs the table word `w`, started on the operands `s` holds (log entry 11). -/
def State.withFetchWord (s : State) (nbits w : Nat) : State := loadCommand (tableWord nbits w) s

end Sys2Proof.Machine
end

