-- ==== Sys2Proof/Safety.lean ====
section
/-! DEFINITION. What a legal state of the block is, and what a safe run is, in the terms the statements use. -/

namespace Sys2Proof.Machine

/-- The buffer holds only bytes inside it, in canonical form (20_memory.md R50). -/
structure Memory.Legal (capacity : Nat) (m : Memory) : Prop where
  wf : m.wf = true
  below : m.below capacity = true

/-- The pairs BITDEPTH and BPP can hold: reset's, and those a success writes (10_state.md R34). -/
def legalDepth (bitDepth : BitVec 16) (bpp : BitVec 3) : Prop :=
  (bitDepth = 0 ∧ bpp = 0) ∨ (bitDepth = 24 ∧ bpp = 3) ∨ (bitDepth = 32 ∧ bpp = 4)

/-- A running command's snapshot still equals the live operands (10_state.md R40). -/
def Snapshot.live (sn : Snapshot) (s : State) : Prop :=
  sn.cmd = s.cmd ∧ sn.arg = s.arg ∧ sn.inLen = s.inLen ∧ sn.input = s.input

/-- What every state the block reaches satisfies. -/
structure State.Inv (s : State) : Prop where
  /-- The parameters are legal (00_scope.md R1, R3). -/
  params : s.params.legal = true
  /-- IN and OUT are in canonical form and inside their capacity (20_memory.md R50, R51). -/
  input : s.input.Legal s.params.capacity
  output : s.output.Legal s.params.capacity
  /-- While BUSY, the snapshot is live (10_state.md R40) and DONE and ERR are clear (10_state.md R24; 70 R219). -/
  busy : ∀ sn wait, s.seq = .busy sn wait → sn.live s ∧ s.done = false ∧ s.err = false
  /-- ERR is set only beside a failing code (70_reset_and_hazards.md R214). -/
  err : s.err = true → s.errcode ≠ .none
  /-- BITDEPTH and BPP hold reset's or a legal pair (10_state.md R34). -/
  depth : legalDepth s.bitDepth s.bpp
  /-- OUT_LEN is within the capacity, and every OUT byte below it is defined (10_state.md R36). -/
  outLen : s.outLen.toNat ≤ s.params.capacity
  defined : ∀ a, a < s.outLen.toNat → s.output.read a ≠ none

/-- The snapshot holds an image the block can process, with header `h` (40_extract_and_codec.md R104 to R109). -/
structure ValidImage (capacity : Nat) (sn : Snapshot) (h : Header) : Prop where
  fits : sn.inLen.toNat ≤ capacity
  long : 30 ≤ sn.inLen.toNat
  dataOffset : h.dataOffset = le sn 10 4
  width : h.width = le sn 18 4
  height : h.height = le sn 22 4
  bitDepth : h.bitDepth = le sn 28 2
  offset : 30 ≤ h.dataOffset ∧ h.dataOffset ≤ sn.inLen.toNat
  depth : h.bitDepth = 24 ∨ h.bitDepth = 32
  grid : 0 < h.width ∧ 0 < h.height
  body : h.width * h.height * (h.bitDepth / 8) ≤ sn.inLen.toNat - h.dataOffset

/-- The run of `n` steps from `s` ends in a state: no fault and no refusal on the way
(93_implementation_defined.md, end of section 1: no behaviour is stuck). -/
def SafeRun (n : Nat) (s : State) : Prop := ∃ t, Host.Core.run Sys2Proof.core n s = .next t

/-- A host event that is no reset. -/
def HostEvent.noReset : HostEvent → Bool
  | .access _ => true
  | .bus _ _ _ => true
  | .poll => true
  | .waitIrq => true
  | .reset => false

/-- A state whose pending events hold no reset: the host leaves the running command alone. -/
def State.noResetPending (s : State) : Bool := s.pending.all HostEvent.noReset

/-- The next step is no reset. -/
def State.noResetNext (s : State) : Bool :=
  match s.pending with
  | [] => true
  | e :: _ => e.noReset

/-- `k` steps from `s` answer `t`. -/
def stepsTo (k : Nat) (s t : State) : Prop := Host.Core.run Sys2Proof.core k s = .next t

/-- What 60_exceptions.md R183 lists: the code, ERR, DONE, the phase, and nothing else. -/
def failedState (code : ErrorCode) (s : State) : State :=
  { s with seq := .idle, done := true, err := true, errcode := code }

/-- What 70_reset_and_hazards.md R214 lists for a success, beside the command's own results. -/
def succeededState (s : State) : State :=
  { s with seq := .idle, done := true, err := false, errcode := .none }

/-- The code of the first condition that holds (60_exceptions.md R182). -/
def firstError : List (Bool × ErrorCode) → ErrorCode
  | [] => .none
  | (holds, code) :: rest => if holds then code else firstError rest

/-- The commands that write OUT (10_state.md R36). -/
def imageCommands : List Instr :=
  [.greyscale, .sepia, .invert, .reflect, .blur 0, .blur 1, .blur 2, .edge]

/-- A CMD word is illegal: the five conditions of 30_encoding.md R74, over the fields of R70. -/
def illegalWord (w : Word) : Prop :=
  let op := (w.extractLsb' 0 4).toNat
  let param := (w.extractLsb' 4 4).toNat
  (op = 0 ∨ 9 ≤ op) ∨ w.extractLsb' 8 24 ≠ 0
    ∨ (op = 1 ∧ (param = 0 ∨ 5 ≤ param)) ∨ (op = 7 ∧ 3 ≤ param)
    ∨ ((2 ≤ op ∧ op ≤ 6 ∨ op = 8) ∧ param ≠ 0)

/-- The snapshot holds, below IN_LEN, the bytes another state has in OUT below OUT_LEN, and the same length. -/
def Snapshot.holdsOutputOf (sn : Snapshot) (t : State) : Prop :=
  sn.inLen = t.outLen ∧ ∀ a, a < t.outLen.toNat → t.output.read a = some (sn.byte a)

end Sys2Proof.Machine
end

