-- ==== Sys2Proof/Certificates/Slice0/Obligations.lean ====
section
/-! DEFINITION. The statements about the block. -/

open Sys2Proof Sys2Proof.Machine

/-! ### Encoding -/

/-- Decoding the encoding of a well-formed command gives the command back (30_encoding.md sections 1 to 3). -/
def Obligations.DecodeOfEncodeIsTheCommand : Prop :=
  ∀ i : Instr, i.wellFormed = true → decode (encode i) = .ok i

/-- A word that decodes is the encoding of the command it decodes to, which is well-formed: no bit of a legal word
is read as something else or dropped (30_encoding.md sections 1 to 3). -/
def Obligations.DecodedWordIsItsEncoding : Prop :=
  ∀ (w : Word) (i : Instr), decode w = .ok i → i.wellFormed = true ∧ encode i = w

/-- The opcode map of 30_encoding.md R73: exactly these thirteen words decode, each to its command, and the word CMD
resets to is none of them. -/
def Obligations.ThirteenWordsAreLegal : Prop :=
  (decode State.reset.cmd).toOption = none ∧ ∀ (w : Word) (i : Instr), decode w = .ok i ↔
    (w, i) ∈ [((0x00000011 : Word), Instr.readLe 1), (0x00000021, .readLe 2), (0x00000031, .readLe 3),
      (0x00000041, .readLe 4), (0x00000002, .parse), (0x00000003, .greyscale), (0x00000004, .sepia),
      (0x00000005, .invert), (0x00000006, .reflect), (0x00000007, .blur 0), (0x00000017, .blur 1),
      (0x00000027, .blur 2), (0x00000008, .edge)]

/-- 30_encoding.md R74: a word is refused by the decoder exactly when one of the five conditions holds, all but
thirteen words are, and running one completes with ILLEGAL_COMMAND and changes nothing but STATUS and ERRCODE. -/
def Obligations.IllegalWordsAreTheFiveKinds : Prop :=
  ∀ w : Word, ((decode w).toOption = none ↔ illegalWord w) ∧
    (¬illegalWord w ↔ w ∈ [(0x11 : Word), 0x21, 0x31, 0x41, 0x02, 0x03, 0x04, 0x05, 0x06, 0x07, 0x17, 0x27, 0x08]) ∧
    ∀ s : State, illegalWord w → completionStep w s = .next (failedState .illegalCommand s)

/-- A few words of the opcode map and of its illegal rest, as the opcode table numbers their bits (30_encoding.md
section 3; 95_test_vectors.md L2.2), and that BLUR written without a radius is BLUR 2 (30_encoding.md section 5). -/
def Obligations.SampleWordsDecode : Prop :=
  decodeTableWord 32 0x00000041 = some (.readLe 4) ∧ decodeTableWord 32 0x00000002 = some .parse ∧
  decodeTableWord 32 0x00000006 = some .reflect ∧ decodeTableWord 32 0x00000027 = some (.blur 2) ∧
  decodeTableWord 32 0x00000008 = some .edge ∧ decodeTableWord 32 0x00000000 = none ∧
  decodeTableWord 32 0x00000051 = none ∧ decodeTableWord 32 0x00000013 = none ∧
  decodeTableWord 32 0x80000005 = none ∧ encode Instr.blurDefault = 0x00000027

/-! ### Steps -/

/-- When the running command's time has come and no reset goes before it, the step is the meaning of the command its
snapshot's CMD word decodes to, and nothing is added around it (20_memory.md section 5; 70_reset_and_hazards.md
section 2). -/
def Obligations.StepRunsTheDecodedCommand : Prop :=
  ∀ (s : State) (sn : Snapshot) (i : Instr), s.seq = .busy sn 0 → s.noResetNext = true → decode sn.cmd = .ok i →
    step s = exec i s

/-- A word placed for the next step runs as the command the decoder reads from it, on the operands the state holds.
That a placed word stands for the host's CMD and start writes is the model's convention (log entry 11). -/
def Obligations.PlacedWordRunsNext : Prop :=
  ∀ (s : State) (nbits w : Nat) (i : Instr), decodeTableWord nbits w = some i →
    step (s.withFetchWord nbits w) = exec i (s.withFetchWord nbits w) ∧
    (s.withFetchWord nbits w).operands.arg = s.arg ∧ (s.withFetchWord nbits w).operands.inLen = s.inLen ∧
    (s.withFetchWord nbits w).operands.input = s.input

/-- The host's next event takes effect in one step, while the block is IDLE, and while it is BUSY with steps left to
wait, of which one passes; with no event pending nothing changes but the wait. An access by bus address is the access
of the window that holds it; POLL and the interrupt wait stay pending while BUSY reads 1 or the line is 0. The
turn-taking is the model's (log entry 13). -/
def Obligations.StepTakesTheHostsTurn : Prop :=
  ∀ (s u : State), (s.seq = .idle ∧ u = s) ∨
      (∃ (sn : Snapshot) (wait : Nat), s.seq = .busy sn (wait + 1) ∧ u = { s with seq := .busy sn wait }) →
    (s.pending = [] → step s = .next u) ∧
    ∀ rest : List HostEvent,
      (∀ a : Access, s.pending = .access a :: rest → step s = .next (answerAccess a { u with pending := rest })) ∧
      (∀ (width : Width) (addr : Nat) (v : Option Word), s.pending = .bus width addr v :: rest →
        step s = .next (busAccess width addr v { u with pending := rest })) ∧
      (s.pending = .poll :: rest → step s = .next { u with
        pending := if s.isBusy then .poll :: rest else rest, response := .word (statusWord s) }) ∧
      (s.pending = .waitIrq :: rest → step s = .next { u with
        pending := if irq s then rest else .waitIrq :: rest })

/-- No state is stuck: every run of every length from every state answers a next state
(93_implementation_defined.md section 1, its last paragraph). -/
def Obligations.EveryRunGoesOn : Prop := ∀ (n : Nat) (s : State), SafeRun n s

/-- Every started command completes: after the steps left to wait comes its completion step, which leaves the block
IDLE with DONE set, whatever the host does meanwhile short of a reset (70_reset_and_hazards.md section 2). That the
wait is a number the state holds and each step counts down is the model's (log entries 4 and 13). -/
def Obligations.EveryStartedCommandCompletes : Prop :=
  ∀ (s : State) (sn : Snapshot) (wait : Nat), s.seq = .busy sn wait → s.noResetPending = true →
    ∃ u t : State, stepsTo wait s u ∧ u.seq = .busy sn 0 ∧ step u = completionStep sn.cmd u ∧ step u = .next t ∧
      t.seq = .idle ∧ t.done = true

/-- The phase moves as 10_state.md section 1 says: out of IDLE only by a write of CTRL with START = 1, out of BUSY
only by a completion whose time has come or by reset. -/
def Obligations.PhaseTransitions : Prop :=
  ∀ s t : State, step s = .next t →
    (s.isBusy = false → t.isBusy = true →
      ∃ (e : HostEvent) (rest : List HostEvent) (v : Word), s.pending = e :: rest ∧ v.getLsbD 0 = true ∧
        (e = .access (.write .reg .w32 0 v) ∨
          ∃ (width : Width) (addr : Nat), e = .bus width addr (some v) ∧ locate s.params addr = some (.reg, 0))) ∧
    (s.isBusy = true → t.isBusy = false →
      s.noResetNext = false ∨ ∃ sn : Snapshot, s.seq = .busy sn 0 ∧ step s = completionStep sn.cmd s)

/-- The result registers change only at a completion step and at reset (10_state.md section 3). That OUT does so too is
the model's choice (log entry 9): the spec lets an implementation write OUT while BUSY, when no read shows it. -/
def Obligations.ResultsChangeOnlyAtCompletionOrReset : Prop :=
  ∀ s t : State, step s = .next t → s.noResetNext = true → (∀ sn : Snapshot, s.seq ≠ .busy sn 0) →
    t.errcode = s.errcode ∧ t.result = s.result ∧ t.dataOffset = s.dataOffset ∧ t.width = s.width ∧
    t.height = s.height ∧ t.bitDepth = s.bitDepth ∧ t.bpp = s.bpp ∧ t.outLen = s.outLen ∧ t.output = s.output

/-! ### Invariants -/

/-- Every step keeps the invariant: legal parameters, both buffers canonical and inside their capacity, the snapshot
of a running command equal to the live operands, DONE and ERR clear while BUSY, ERR only beside a failing code,
BITDEPTH and BPP a legal pair, OUT_LEN within the capacity with every byte below it defined. -/
def Obligations.StepKeepsTheInvariant : Prop :=
  ∀ s t : State, s.Inv → step s = .next t → t.Inv

/-- The invariant holds after reset. -/
def Obligations.ResetMeetsTheInvariant : Prop := State.reset.Inv

/-! ### Errors and completion -/

/-- 60_exceptions.md R183: a command that completes with an error code changes ERRCODE, ERR, DONE and the phase, and
nothing else: for every command word and for every command. -/
def Obligations.ErrorChangesOnlyStatusAndCode : Prop :=
  (∀ (w : Word) (s t : State), completionStep w s = .next t → t.errcode ≠ .none → t = failedState t.errcode s) ∧
  ∀ (i : Instr) (s t : State), exec i s = .next t → t.errcode ≠ .none → t = failedState t.errcode s

/-- 60_exceptions.md R182: whatever the command word, the completion reports the first condition that holds in the
order of its row, and no other. -/
def Obligations.FirstFailedCheckIsReported : Prop :=
  ∀ (w : Word) (s : State), ∃ t : State, completionStep w s = .next t ∧
    let sn := s.operands
    let length := sn.inLen.toNat
    let op := (w.extractLsb' 0 4).toNat
    let illegal := (decode w).toOption.isNone
    (op = 1 → t.errcode = firstError
      [(illegal, .illegalCommand), (decide (s.params.capacity < length), .lenRange),
       (decide (length < sn.arg.toNat + (w.extractLsb' 4 4).toNat), .readRange)]) ∧
    (op ≠ 1 → t.errcode = firstError
      [(illegal, .illegalCommand), (decide (s.params.capacity < length), .lenRange),
       (decide (length < 30 ∨ le sn 10 4 < 30 ∨ length < le sn 10 4), .headerTruncated),
       (decide (le sn 28 2 ≠ 24 ∧ le sn 28 2 ≠ 32), .badBitDepth),
       (decide (le sn 18 4 = 0 ∨ le sn 22 4 = 0), .emptyGrid),
       (decide (length - le sn 10 4 < le sn 18 4 * le sn 22 4 * (le sn 28 2 / 8)), .bodyTruncated)])

/-- 60_exceptions.md R181: ILLEGAL_COMMAND is what the completion reports exactly when the snapshot's CMD word is
illegal, and the start write finds nothing: it leaves ERRCODE as it is and ERR clear. -/
def Obligations.IllegalCommandIsFoundAtCompletion : Prop :=
  (∀ (s : State) (sn : Snapshot), s.seq = .busy sn 0 → s.noResetNext = true →
    ∃ t : State, step s = .next t ∧ (t.errcode = .illegalCommand ↔ illegalWord sn.cmd)) ∧
  ∀ (s : State) (v : Word), s.seq = .idle → v.getLsbD 0 = true →
    ∃ t : State, hostAccess (.write .reg .w32 0 v) s = .ok t ∧ t.isBusy = true ∧ t.errcode = s.errcode ∧
      t.err = false

/-- A completion leaves the block IDLE with DONE set and ERR saying whether the code is a failure, and leaves the
operands, the parameters, IN, IE and the host's pending events alone, for every command
(70_reset_and_hazards.md section 2; 20_memory.md section 4). -/
def Obligations.CompletionFrame : Prop :=
  ∀ (i : Instr) (s : State), ∃ t : State, exec i s = .next t ∧ t.seq = .idle ∧ t.done = true ∧
    t.err = decide (t.errcode ≠ .none) ∧ t.params = s.params ∧ t.ie = s.ie ∧ t.cmd = s.cmd ∧ t.arg = s.arg ∧
    t.inLen = s.inLen ∧ t.input = s.input ∧ t.response = s.response ∧ t.pending = s.pending ∧ t.draws = s.draws

/-- A command's outcome depends on the snapshot alone, and of IN only on the bytes below IN_LEN: two runs that agree
there end in the same code and the same results (10_state.md section 4; 20_memory.md sections 1, 4 and 5). -/
def Obligations.OutcomeDependsOnTheSnapshotAlone : Prop :=
  ∀ (i : Instr) (s₁ s₂ t₁ t₂ : State), s₁.params.capacity = s₂.params.capacity →
    s₁.operands.arg = s₂.operands.arg → s₁.operands.inLen = s₂.operands.inLen →
    (∀ a, a < s₁.operands.inLen.toNat → s₁.operands.byte a = s₂.operands.byte a) →
    exec i s₁ = .next t₁ → exec i s₂ = .next t₂ →
    t₁.errcode = t₂.errcode ∧ (t₁.errcode = .none →
      ((∃ n, i = .readLe n) → t₁.result = t₂.result) ∧
      ((∀ n, i ≠ .readLe n) → t₁.dataOffset = t₂.dataOffset ∧ t₁.width = t₂.width ∧ t₁.height = t₂.height ∧
        t₁.bitDepth = t₂.bitDepth ∧ t₁.bpp = t₂.bpp) ∧
      (i ∈ imageCommands → t₁.outLen = t₂.outLen ∧
        ∀ a, a < s₁.operands.inLen.toNat → t₁.output.read a = t₂.output.read a))

/-! ### READ_LE and PARSE -/

/-- The encoding of READ_LE, its result and everything it leaves alone, and its three errors in their order; RESULT is
the sum of the bytes times their place values (40_extract_and_codec.md section 1). That a count outside 1 to 4, also
one no word encodes, raises ILLEGAL_COMMAND when `exec` is given it as a term is the model's reading (log entry 14). -/
def Obligations.ReadLeExtractsTheInteger : Prop :=
  ∀ (n : Nat) (s : State),
    let sn := s.operands
    (1 ≤ n → n ≤ 4 → encode (.readLe n) = 0x00000001 ||| (BitVec.ofNat 32 n <<< 4)) ∧
    (¬(1 ≤ n ∧ n ≤ 4) → exec (.readLe n) s = .next (failedState .illegalCommand s)) ∧
    (1 ≤ n → n ≤ 4 → s.params.capacity < sn.inLen.toNat → exec (.readLe n) s = .next (failedState .lenRange s)) ∧
    (1 ≤ n → n ≤ 4 → sn.inLen.toNat ≤ s.params.capacity → sn.inLen.toNat < sn.arg.toNat + n →
      exec (.readLe n) s = .next (failedState .readRange s)) ∧
    (1 ≤ n → n ≤ 4 → sn.inLen.toNat ≤ s.params.capacity → sn.arg.toNat + n ≤ sn.inLen.toNat →
      exec (.readLe n) s = .next { succeededState s with
        result := BitVec.ofNat 32 (∑ i ∈ Finset.range n, (sn.byte (sn.arg.toNat + i)).toNat * 256 ^ i) })

/-- 40_extract_and_codec.md R102: with the length within the capacity, READ_LE n succeeds exactly when every offset
from ARG to ARG + n - 1 lies below the length, and every byte it reads then lies in IN. -/
def Obligations.ReadLeAdmitsExactlyTheOffsetsInRange : Prop :=
  ∀ (n : Nat) (s : State), 1 ≤ n → n ≤ 4 → s.operands.inLen.toNat ≤ s.params.capacity →
    ∃ t : State, exec (.readLe n) s = .next t ∧
      (t.errcode = .none ↔ ∀ i, i < n → s.operands.arg.toNat + i < s.operands.inLen.toNat) ∧
      (t.errcode = .none → ∀ i, i < n → s.operands.arg.toNat + i < s.params.capacity)

/-- 40_extract_and_codec.md R101: the extractor's value is the sum of the bytes times their place values, below
`2^(8n)`, and as a bit pattern the bytes, the one at the lowest offset in bits 7:0. -/
def Obligations.LittleEndianValueIsTheBytes : Prop :=
  ∀ (sn : Snapshot) (a : Nat),
    (∀ n, 1 ≤ n → n ≤ 4 → le sn a n = ∑ i ∈ Finset.range n, (sn.byte (a + i)).toNat * 256 ^ i ∧
      le sn a n < 2 ^ (8 * n)) ∧
    BitVec.ofNat 32 (le sn a 1) = (sn.byte a).setWidth 32 ∧
    BitVec.ofNat 32 (le sn a 2) = (sn.byte (a + 1) ++ sn.byte a).setWidth 32 ∧
    BitVec.ofNat 32 (le sn a 3) = (sn.byte (a + 2) ++ sn.byte (a + 1) ++ sn.byte a).setWidth 32 ∧
    BitVec.ofNat 32 (le sn a 4) = (sn.byte (a + 3) ++ sn.byte (a + 2) ++ sn.byte (a + 1) ++ sn.byte a).setWidth 32

/-- PARSE on an image that passes every check writes the header registers, ERRCODE and STATUS, and nothing else
(40_extract_and_codec.md section 4). -/
def Obligations.ParseWritesTheHeaderRegisters : Prop :=
  ∀ (s : State) (h : Header), ValidImage s.params.capacity s.operands h →
    exec .parse s = .next { succeededState s with
      dataOffset := BitVec.ofNat 32 h.dataOffset, width := BitVec.ofNat 32 h.width,
      height := BitVec.ofNat 32 h.height, bitDepth := BitVec.ofNat 16 h.bitDepth,
      bpp := BitVec.ofNat 3 (h.bitDepth / 8) }

/-- PARSE succeeds exactly when every legal image command on the same snapshot succeeds, and fails with the same code
(40_extract_and_codec.md section 4). -/
def Obligations.ParseAgreesWithEveryImageCommand : Prop :=
  ∀ (i : Instr) (s : State), i ∈ imageCommands →
    ∃ t u : State, exec .parse s = .next t ∧ exec i s = .next u ∧ t.errcode = u.errcode ∧
      (t.errcode = .none ↔ ∃ h : Header, ValidImage s.params.capacity s.operands h)

/-! ### Image commands -/

/-- Every image command on a valid image writes OUT below the length and OUT_LEN, the header registers, ERRCODE and
STATUS, and nothing else; the header and the trailing bytes are IN's (40_extract_and_codec.md section 3). That the
bytes stored in OUT at or above the length stay in the state, where no read shows them, is the model's choice (log
entry 9). -/
def Obligations.ImageCommandsPackTheOutput : Prop :=
  ∀ (i : Instr) (s : State) (h : Header), i ∈ imageCommands → ValidImage s.params.capacity s.operands h →
    ∃ t : State, exec i s = .next t ∧
      (∀ a, a < h.dataOffset → t.output.read a = some (s.operands.byte a)) ∧
      (∀ a, h.dataOffset + h.width * h.height * (h.bitDepth / 8) ≤ a → a < s.operands.inLen.toNat →
        t.output.read a = some (s.operands.byte a)) ∧
      (∀ a, s.operands.inLen.toNat ≤ a → t.output.read a = s.output.read a) ∧
      t = { succeededState s with
        dataOffset := BitVec.ofNat 32 h.dataOffset, width := BitVec.ofNat 32 h.width,
        height := BitVec.ofNat 32 h.height, bitDepth := BitVec.ofNat 16 h.bitDepth,
        bpp := BitVec.ofNat 3 (h.bitDepth / 8), outLen := s.operands.inLen, output := t.output }

/-- The output of an image command is a valid image with the same header values (40_extract_and_codec.md section 3,
dimension preservation): a snapshot that holds it passes every check with the same header. -/
def Obligations.OutputKeepsTheDimensions : Prop :=
  ∀ (i : Instr) (s t : State) (h : Header) (sn : Snapshot), i ∈ imageCommands →
    ValidImage s.params.capacity s.operands h → exec i s = .next t → sn.holdsOutputOf t →
    ValidImage s.params.capacity sn h

/-- GREYSCALE: each of B, G and R becomes the rounded average, alpha passes through (41_point_ops.md, GREYSCALE). -/
def Obligations.GreyscaleAveragesThePixel : Prop :=
  ∀ (s : State) (h : Header), ValidImage s.params.capacity s.operands h →
    ∃ t : State, exec .greyscale s = .next t ∧ t.errcode = .none ∧
      ∀ r c, r < h.height → c < h.width →
        let p := px s.operands h r c
        (∀ ch, ch < 3 → t.output.read (pixelOffset h r c ch) = some (BitVec.ofNat 8 ((p 0 + p 1 + p 2 + 1) / 3))) ∧
        (h.bitDepth = 32 → t.output.read (pixelOffset h r c 3) = some (BitVec.ofNat 8 (p 3)))

/-- SEPIA: the three weighted sums, rounded to nearest with ties up and clamped to 255, alpha passes through
(41_point_ops.md, SEPIA). -/
def Obligations.SepiaWeighsThePixel : Prop :=
  ∀ (s : State) (h : Header), ValidImage s.params.capacity s.operands h →
    ∃ t : State, exec .sepia s = .next t ∧ t.errcode = .none ∧
      ∀ r c, r < h.height → c < h.width →
        let p := px s.operands h r c
        t.output.read (pixelOffset h r c 2) =
          some (BitVec.ofNat 8 (min ((393 * p 2 + 769 * p 1 + 189 * p 0 + 500) / 1000) 255)) ∧
        t.output.read (pixelOffset h r c 1) =
          some (BitVec.ofNat 8 (min ((349 * p 2 + 686 * p 1 + 168 * p 0 + 500) / 1000) 255)) ∧
        t.output.read (pixelOffset h r c 0) =
          some (BitVec.ofNat 8 (min ((272 * p 2 + 534 * p 1 + 131 * p 0 + 500) / 1000) 255)) ∧
        (h.bitDepth = 32 → t.output.read (pixelOffset h r c 3) = some (BitVec.ofNat 8 (p 3)))

/-- INVERT: each of B, G and R becomes its bitwise complement, which is 255 minus it, alpha passes through
(41_point_ops.md, INVERT). -/
def Obligations.InvertComplementsThePixel : Prop :=
  ∀ (s : State) (h : Header), ValidImage s.params.capacity s.operands h →
    ∃ t : State, exec .invert s = .next t ∧ t.errcode = .none ∧
      ∀ r c, r < h.height → c < h.width →
        (∀ ch, ch < 3 → t.output.read (pixelOffset h r c ch) = some (~~~ s.operands.byte (pixelOffset h r c ch)) ∧
          t.output.read (pixelOffset h r c ch) = some (BitVec.ofNat 8 (255 - px s.operands h r c ch))) ∧
        (h.bitDepth = 32 →
          t.output.read (pixelOffset h r c 3) = some (s.operands.byte (pixelOffset h r c 3)))

/-- REFLECT: the pixel at `(r, c)` becomes the pixel at `(r, W-1-c)`, alpha included (41_point_ops.md, REFLECT). -/
def Obligations.ReflectMirrorsTheRows : Prop :=
  ∀ (s : State) (h : Header), ValidImage s.params.capacity s.operands h →
    ∃ t : State, exec .reflect s = .next t ∧ t.errcode = .none ∧
      ∀ r c ch, r < h.height → c < h.width → ch < h.bitDepth / 8 →
        t.output.read (pixelOffset h r c ch) = some (s.operands.byte (pixelOffset h r (h.width - 1 - c) ch))

/-- BLUR k: each of B, G and R becomes the floor of its average over the window of radius `k` clipped to the image,
alpha passes through (42_neighborhood_ops.md, BLUR). That a radius above 2, also one no word encodes, raises
ILLEGAL_COMMAND when `exec` is given it as a term is the model's reading (log entry 14). -/
def Obligations.BlurAveragesTheClippedWindow : Prop :=
  (∀ (k : Nat) (s : State), 2 < k → exec (.blur k) s = .next (failedState .illegalCommand s)) ∧
  ∀ (k : Nat) (s : State) (h : Header), k ≤ 2 → ValidImage s.params.capacity s.operands h →
    ∃ t : State, exec (.blur k) s = .next t ∧ t.errcode = .none ∧
      ∀ r c, r < h.height → c < h.width →
        let rows := Finset.Icc (r - k) (min (h.height - 1) (r + k))
        let cols := Finset.Icc (c - k) (min (h.width - 1) (c + k))
        (∀ ch, ch < 3 → t.output.read (pixelOffset h r c ch) = some (BitVec.ofNat 8
          ((∑ i ∈ rows, ∑ j ∈ cols, px s.operands h i j ch) / (rows.card * cols.card)))) ∧
        (h.bitDepth = 32 →
          t.output.read (pixelOffset h r c 3) = some (s.operands.byte (pixelOffset h r c 3)))

/-- EDGE: each of B, G and R becomes the floor of the square root of `Gx² + Gy²`, clamped to 255, the gradients in the
closed form of the Sobel kernels with black outside the image; alpha passes through (42_neighborhood_ops.md, EDGE). -/
def Obligations.EdgeTakesTheSobelMagnitude : Prop :=
  ∀ (s : State) (h : Header), ValidImage s.params.capacity s.operands h →
    ∃ t : State, exec .edge s = .next t ∧ t.errcode = .none ∧
      ∀ r c, r < h.height → c < h.width →
        (∀ ch, ch < 3 →
          let v : Int → Int → Int := fun i j =>
            if 0 ≤ i ∧ i < h.height ∧ 0 ≤ j ∧ j < h.width then (px s.operands h i.toNat j.toNat ch : Int) else 0
          let gx := (v (r - 1) (c + 1) + 2 * v r (c + 1) + v (r + 1) (c + 1))
            - (v (r - 1) (c - 1) + 2 * v r (c - 1) + v (r + 1) (c - 1))
          let gy := (v (r + 1) (c - 1) + 2 * v (r + 1) c + v (r + 1) (c + 1))
            - (v (r - 1) (c - 1) + 2 * v (r - 1) c + v (r - 1) (c + 1))
          t.output.read (pixelOffset h r c ch) =
            some (BitVec.ofNat 8 (min (Nat.sqrt (gx ^ 2 + gy ^ 2).toNat) 255))) ∧
        (h.bitDepth = 32 →
          t.output.read (pixelOffset h r c 3) = some (s.operands.byte (pixelOffset h r c 3)))

/-- 40_extract_and_codec.md R116: BLUR 0 writes every byte of IN below the length to OUT unchanged. -/
def Obligations.BlurZeroCopiesTheImage : Prop :=
  ∀ (s : State) (h : Header), ValidImage s.params.capacity s.operands h →
    ∃ t : State, exec (.blur 0) s = .next t ∧ t.errcode = .none ∧
      ∀ a, a < s.operands.inLen.toNat → t.output.read a = some (s.operands.byte a)

/-- INVERT twice gives the image back (41_point_ops.md, INVERT): a second INVERT, on a state whose operands hold the
first one's output, writes the bytes the first one read. -/
def Obligations.InvertTwiceGivesTheImageBack : Prop :=
  ∀ (s t u : State) (h : Header), ValidImage s.params.capacity s.operands h → exec .invert s = .next t →
    u.operands.holdsOutputOf t → u.params.capacity = s.params.capacity →
    ∃ w : State, exec .invert u = .next w ∧ w.errcode = .none ∧
      ∀ a, a < s.operands.inLen.toNat → w.output.read a = some (s.operands.byte a)

/-- REFLECT twice gives the image back (41_point_ops.md, REFLECT). -/
def Obligations.ReflectTwiceGivesTheImageBack : Prop :=
  ∀ (s t u : State) (h : Header), ValidImage s.params.capacity s.operands h → exec .reflect s = .next t →
    u.operands.holdsOutputOf t → u.params.capacity = s.params.capacity →
    ∃ w : State, exec .reflect u = .next w ∧ w.errcode = .none ∧
      ∀ a, a < s.operands.inLen.toNat → w.output.read a = some (s.operands.byte a)

/-! ### Arithmetic of the units -/

/-- 00_scope.md R12: `isqrt N` is the largest `m` with `m * m <= N`, and the floor of the real square root. -/
def Obligations.IsqrtIsTheFloorOfTheRoot : Prop :=
  ∀ N : Nat, isqrt N * isqrt N ≤ N ∧ (∀ m : Nat, m * m ≤ N → m ≤ isqrt N) ∧ isqrt N = ⌊Real.sqrt (N : ℝ)⌋₊

/-- 41_point_ops.md R131: for every sum from 0 to 765, `(S + 1) div 3` is the nearest integer to `S / 3`, no tie can
occur, and the result is at most 255. -/
def Obligations.GreyValueRoundsToNearest : Prop :=
  ∀ b g r : Nat, b ≤ 255 → g ≤ 255 → r ≤ 255 →
    let S := b + g + r
    |(greyValue b g r : ℚ) - (S : ℚ) / 3| < 1 / 2 ∧ (∀ m : ℤ, |(m : ℚ) - (S : ℚ) / 3| ≠ 1 / 2) ∧
      greyValue b g r ≤ 255

/-- 41_point_ops.md R133: the largest value of each sum, that it is reached, that channel 0 never reaches the clamp
and channels 1 and 2 do, that 19 bits hold each sum plus 500, and that channel 3 is unchanged. -/
def Obligations.SepiaSumBounds : Prop :=
  (∀ b g r : Nat, b ≤ 255 → g ≤ 255 → r ≤ 255 →
    sepiaSum b g r 2 ≤ 344505 ∧ sepiaSum b g r 1 ≤ 306765 ∧ sepiaSum b g r 0 ≤ 238935 ∧
    sepiaValue b g r 0 = (sepiaSum b g r 0 + 500) / 1000 ∧ sepiaValue b g r 0 ≤ 239 ∧
    ∀ ch, sepiaSum b g r ch + 500 < 2 ^ 19) ∧
  sepiaSum 255 255 255 2 = 344505 ∧ sepiaSum 255 255 255 1 = 306765 ∧ sepiaSum 255 255 255 0 = 238935 ∧
  (∀ ch, ch = 1 ∨ ch = 2 → sepiaValue 255 255 255 ch < (sepiaSum 255 255 255 ch + 500) / 1000) ∧
  ∀ (sn : Snapshot) (h : Header) (r c : Nat), keepAlpha sepiaChannel sn h r c 3 = px sn h r c 3

/-- BLUR's window (42_neighborhood_ops.md, BLUR): for a pixel of the image and a legal radius, the window's rows are
exactly the rows of the image within `k`, its columns likewise, the count is their number, between 1 and `(2k+1)²`,
and the sum is at most 255 times the count, so 13 and 5 bits suffice. -/
def Obligations.BlurWindowIsTheClippedSquare : Prop :=
  ∀ (k : Nat) (sn : Snapshot) (h : Header) (r c ch : Nat), k ≤ 2 → r < h.height → c < h.width →
    (∀ i, (windowLo r k ≤ i ∧ i < windowLo r k + windowLen r k h.height) ↔ (r ≤ i + k ∧ i ≤ r + k ∧ i < h.height)) ∧
    (∀ j, (windowLo c k ≤ j ∧ j < windowLo c k + windowLen c k h.width) ↔ (c ≤ j + k ∧ j ≤ c + k ∧ j < h.width)) ∧
    windowCount h k r c = windowLen r k h.height * windowLen c k h.width ∧
    1 ≤ windowCount h k r c ∧ windowCount h k r c ≤ (2 * k + 1) ^ 2 ∧ windowCount h k r c < 2 ^ 5 ∧
    windowSum k sn h r c ch ≤ 255 * windowCount h k r c ∧ windowSum k sn h r c ch < 2 ^ 13

/-- The Sobel bounds (42_neighborhood_ops.md, EDGE): each gradient lies within 1020 of 0, the sum of squares is at
most 1300500, which one neighbourhood reaches, and the magnitude before the clamp is at most 1140. -/
def Obligations.SobelBounds : Prop :=
  (∀ (sn : Snapshot) (h : Header) (r c ch : Nat),
    let gx := sobelGradient kernelX sn h r c ch
    let gy := sobelGradient kernelY sn h r c ch
    |gx| ≤ 1020 ∧ |gy| ≤ 1020 ∧ gx * gx + gy * gy ≤ 1300500 ∧ isqrt (gx * gx + gy * gy).toNat ≤ 1140 ∧
      edgeChannel sn h r c ch ≤ 255) ∧
  ∃ (sn : Snapshot) (h : Header), sobelGradient kernelX sn h 1 1 0 = 510 ∧ sobelGradient kernelY sn h 1 1 0 = 1020

/-- EDGE on a channel that is `v` all over the image (42_neighborhood_ops.md, EDGE; 90_conflicts.md C1): with three
rows and columns or more, the corners get the root of `18 v²`, the other border pixels `4 v`, both clamped, and the
interior 0; a 1 by 1 image gets 0. -/
def Obligations.FlatImageKeepsItsBlackBorder : Prop :=
  ∀ (sn : Snapshot) (h : Header) (v ch r c : Nat),
    (∀ i j, i < h.height → j < h.width → px sn h i j ch = v) → r < h.height → c < h.width →
    let rowEdge := r = 0 ∨ r = h.height - 1
    let colEdge := c = 0 ∨ c = h.width - 1
    (3 ≤ h.height → 3 ≤ h.width →
      (rowEdge ∧ colEdge → edgeChannel sn h r c ch = min (Nat.sqrt (18 * v ^ 2)) 255) ∧
      ((rowEdge ∧ ¬colEdge ∨ ¬rowEdge ∧ colEdge) → edgeChannel sn h r c ch = min (4 * v) 255) ∧
      (¬rowEdge ∧ ¬colEdge → edgeChannel sn h r c ch = 0)) ∧
    (h.height = 1 → h.width = 1 → edgeChannel sn h r c ch = 0)

/-- No narrowing loses anything: for every pixel of an image, the value each image command computes for a colour
channel is at most 255 (95_test_vectors.md L1.6, channel bound invariant). -/
def Obligations.ChannelValuesFitAByte : Prop :=
  ∀ (sn : Snapshot) (h : Header) (k r c ch : Nat), k ≤ 2 → r < h.height → c < h.width →
    greyscaleChannel sn h r c ch ≤ 255 ∧ sepiaChannel sn h r c ch ≤ 255 ∧ invertChannel sn h r c ch ≤ 255 ∧
    reflectChannel sn h r c ch ≤ 255 ∧ blurChannel k sn h r c ch ≤ 255 ∧ edgeChannel sn h r c ch ≤ 255

/-! ### The host's accesses -/

/-- 10_state.md R24: the start write. While IDLE, bit 0 = 1 starts a command: the phase, DONE, ERR and the snapshot,
and nothing else but IE, whatever the CMD word; while BUSY it does nothing, and with bit 0 = 0 nothing starts, but IE
is updated; CTRL.START reads 0, as do the reserved bits 31:2 (R23), and no write stores anything in them. -/
def Obligations.StartWriteStartsACommand : Prop :=
  (∀ (s : State) (v : Word), s.seq = .idle → v.getLsbD 0 = true →
    ∃ t : State, hostAccess (.write .reg .w32 0x00 v) s = .ok t ∧
      (∃ (sn : Snapshot) (wait : Nat), t.seq = .busy sn wait ∧ sn.cmd = s.cmd ∧ sn.arg = s.arg ∧
        sn.inLen = s.inLen ∧ sn.input = s.input) ∧
      t = { s with ie := v.getLsbD 1, done := false, err := false, response := .written, seq := t.seq,
                   draws := t.draws }) ∧
  (∀ (s : State) (v : Word), s.isBusy = true ∨ v.getLsbD 0 = false →
    hostAccess (.write .reg .w32 0x00 v) s = .ok { s with ie := v.getLsbD 1, response := .written }) ∧
  ∀ s : State, ∃ w : Word, hostAccess (.read .reg .w32 0x00) s = .ok { s with response := .word w } ∧
    w.getLsbD 0 = false ∧ w.getLsbD 1 = s.ie ∧ w.extractLsb' 2 30 = 0

/-- 10_state.md R25: IE is 0 after reset, a write of CTRL in either phase sets it to bit 1, CTRL reads it, and it
changes no command's result: a command run with another IE ends in the same state but for IE. It shows in the
interrupt output and in CTRL alone. -/
def Obligations.InterruptEnableChangesNoResult : Prop :=
  State.reset.ie = false ∧
  (∀ s : State, ∃ w : Word, hostAccess (.read .reg .w32 0x00) s = .ok { s with response := .word w } ∧
    w.getLsbD 1 = s.ie) ∧
  (∀ (s : State) (v : Word), ∃ t : State, hostAccess (.write .reg .w32 0x00 v) s = .ok t ∧ t.ie = v.getLsbD 1) ∧
  (∀ (i : Instr) (s t : State) (b : Bool), exec i s = .next t → exec i { s with ie := b } = .next { t with ie := b }) ∧
  ∀ (s : State) (b : Bool), irq { s with ie := b } = (b && s.done) ∧
    (∀ r : Reg, r ≠ .ctrl → readReg { s with ie := b } r = readReg s r) ∧
    ∀ a : Nat, inByte { s with ie := b } a = inByte s a ∧ outByte { s with ie := b } a = outByte s a

/-- 10_state.md R27: a write of STATUS clears DONE if bit 1 is 1 and ERR if bit 2 is 1, and changes nothing else; a
completion due in the same step goes first. -/
def Obligations.StatusWriteClearsTheNamedFlags : Prop :=
  (∀ (s : State) (v : Word), hostAccess (.write .reg .w32 0x04 v) s = .ok { s with
    done := s.done && !v.getLsbD 1, err := s.err && !v.getLsbD 2, response := .written }) ∧
  ∀ (s : State) (sn : Snapshot) (v : Word) (rest : List HostEvent), s.seq = .busy sn 0 →
    s.pending = .access (.write .reg .w32 0x04 v) :: rest →
    ∃ t : State, step s = .next t ∧ t.done = true ∧ t.pending = s.pending ∧
      step t = .next { t with
        done := t.done && !v.getLsbD 1, err := t.err && !v.getLsbD 2, response := .written, pending := rest }

/-- STATUS reads BUSY, DONE and ERR in bits 0, 1 and 2 and 0 above (10_state.md, STATUS). -/
def Obligations.StatusReadsTheFlags : Prop :=
  ∀ s : State, ∃ w : Word, hostAccess (.read .reg .w32 0x04) s = .ok { s with response := .word w } ∧
    w.getLsbD 0 = s.isBusy ∧ w.getLsbD 1 = s.done ∧ w.getLsbD 2 = s.err ∧ w.extractLsb' 3 29 = 0 ∧
    (s.isBusy = true ↔ ∃ (sn : Snapshot) (wait : Nat), s.seq = .busy sn wait)

/-- CMD, ARG and IN_LEN take any 32-bit value while IDLE and read it back; nothing else changes
(10_state.md, operand registers). -/
def Obligations.OperandRegistersReadBack : Prop :=
  ∀ (s : State) (v : Word), s.seq = .idle →
    hostAccess (.write .reg .w32 0x08 v) s = .ok { s with cmd := v, response := .written } ∧
    hostAccess (.write .reg .w32 0x0C v) s = .ok { s with arg := v, response := .written } ∧
    hostAccess (.write .reg .w32 0x10 v) s = .ok { s with inLen := v, response := .written } ∧
    hostAccess (.read .reg .w32 0x08) { s with cmd := v } = .ok { s with cmd := v, response := .word v } ∧
    hostAccess (.read .reg .w32 0x0C) { s with arg := v } = .ok { s with arg := v, response := .word v } ∧
    hostAccess (.read .reg .w32 0x10) { s with inLen := v } = .ok { s with inLen := v, response := .word v }

/-- 10_state.md R39: while BUSY, writes of CMD, ARG, IN_LEN and IN are ignored, reads of the registers return the
values the running command took, and writes of CTRL.IE and of the STATUS W1C bits take effect. The invariant rules
out states whose snapshot is not live, which no run reaches. -/
def Obligations.BusyLocksTheOperands : Prop :=
  ∀ (s : State) (sn : Snapshot) (wait : Nat) (v : Word), s.seq = .busy sn wait →
    (∀ off : Nat, off = 0x08 ∨ off = 0x0C ∨ off = 0x10 →
      hostAccess (.write .reg .w32 off v) s = .ok { s with response := .written }) ∧
    (∀ (width : Width) (off : Nat) (t : State), hostAccess (.write .input width off v) s = .ok t →
      t = { s with response := .written }) ∧
    (s.Inv →
      hostAccess (.read .reg .w32 0x08) s = .ok { s with response := .word sn.cmd } ∧
      hostAccess (.read .reg .w32 0x0C) s = .ok { s with response := .word sn.arg } ∧
      hostAccess (.read .reg .w32 0x10) s = .ok { s with response := .word sn.inLen }) ∧
    hostAccess (.write .reg .w32 0x00 v) s = .ok { s with ie := v.getLsbD 1, response := .written } ∧
    hostAccess (.write .reg .w32 0x04 v) s = .ok { s with
      done := s.done && !v.getLsbD 1, err := s.err && !v.getLsbD 2, response := .written }

/-- 10_state.md R35, R37 and R38: CAPACITY always reads IN_CAPACITY, which no step changes; the reserved offsets read
0; writes of the reserved and of the read-only registers are ignored and are no errors. -/
def Obligations.ConstantAndReadOnlyRegisters : Prop :=
  ∀ (s : State) (v : Word), s.params.legal = true →
    (∃ w : Word, hostAccess (.read .reg .w32 0x34) s = .ok { s with response := .word w } ∧
      w.toNat = s.params.capacity) ∧
    (∀ t : State, step s = .next t → t.params = s.params) ∧
    (∀ off : Nat, off = 0x38 ∨ off = 0x3C →
      hostAccess (.read .reg .w32 off) s = .ok { s with response := .word 0 }) ∧
    ∀ off : Nat, off ∈ [0x14, 0x18, 0x1C, 0x20, 0x24, 0x28, 0x2C, 0x30, 0x34, 0x38, 0x3C] →
      hostAccess (.write .reg .w32 off v) s = .ok { s with response := .written }

/-- The read-only registers read the results, ERRCODE as its number, unused bits 0 (10_state.md, result registers;
60_exceptions.md section 1). -/
def Obligations.ResultRegistersReadTheResults : Prop :=
  ∀ s : State,
    let reads := fun (off : Nat) (w : Word) => hostAccess (.read .reg .w32 off) s = .ok { s with response := .word w }
    (∃ w : Word, reads 0x14 w ∧ w.toNat ≤ 7 ∧ (w = 0 ↔ s.errcode = .none) ∧ (w = 1 ↔ s.errcode = .illegalCommand) ∧
      (w = 2 ↔ s.errcode = .lenRange) ∧ (w = 3 ↔ s.errcode = .readRange) ∧ (w = 4 ↔ s.errcode = .headerTruncated) ∧
      (w = 5 ↔ s.errcode = .badBitDepth) ∧ (w = 6 ↔ s.errcode = .emptyGrid) ∧ (w = 7 ↔ s.errcode = .bodyTruncated)) ∧
    reads 0x18 s.result ∧ reads 0x1C s.dataOffset ∧ reads 0x20 s.width ∧ reads 0x24 s.height ∧
    (∃ w : Word, reads 0x28 w ∧ w.toNat = s.bitDepth.toNat) ∧ (∃ w : Word, reads 0x2C w ∧ w.toNat = s.bpp.toNat) ∧
    reads 0x30 s.outLen

/-- Host accesses of IN (20_memory.md section 2). While IDLE, an 8-bit or aligned 32-bit write stores its bytes and leaves
every other byte of IN as it reads; while BUSY it is ignored; a read is allowed in either phase, changes no state of
the block and returns the stored bytes; no command writes IN; after reset no byte of it has a value, and but for reset
IN changes only through a host write. That an 8-bit write's byte is bits 7:0 of its datum is log entry 8. -/
def Obligations.HostAccessesOfInput : Prop :=
  (∀ (s : State) (off : Nat) (v : Word), s.seq = .idle → off < s.params.capacity →
    ∃ t : State, hostAccess (.write .input .w8 off v) s = .ok t ∧ t = { s with input := t.input, response := .written } ∧
      t.input.read off = some (v.extractLsb' 0 8) ∧ ∀ a, a ≠ off → t.input.read a = s.input.read a) ∧
  (∀ (s : State) (m : Nat) (v : Word), s.seq = .idle → 4 * m + 3 < s.params.capacity →
    ∃ t : State, hostAccess (.write .input .w32 (4 * m) v) s = .ok t ∧
      t = { s with input := t.input, response := .written } ∧
      (∀ i, i < 4 → t.input.read (4 * m + i) = some (v.extractLsb' (8 * i) 8)) ∧
      ∀ a, a < 4 * m ∨ 4 * m + 4 ≤ a → t.input.read a = s.input.read a) ∧
  (∀ (s t : State) (width : Width) (off : Nat) (v : Word), s.isBusy = true →
    hostAccess (.write .input width off v) s = .ok t → t = { s with response := .written }) ∧
  (∀ (s : State) (off : Nat), off < s.params.capacity → ∃ (t : State) (b : Byte),
    hostAccess (.read .input .w8 off) s = .ok t ∧ t = { s with response := .byte b, draws := t.draws } ∧
    ∀ x, s.input.read off = some x → b = x) ∧
  (∀ (s : State) (m : Nat), 4 * m + 3 < s.params.capacity → ∃ (t : State) (w : Word),
    hostAccess (.read .input .w32 (4 * m)) s = .ok t ∧ t = { s with response := .word w, draws := t.draws } ∧
    ∀ i x, i < 4 → s.input.read (4 * m + i) = some x → w.extractLsb' (8 * i) 8 = x) ∧
  (∀ (i : Instr) (s t : State), exec i s = .next t → t.input = s.input) ∧
  (∀ a : Nat, State.reset.input.read a = none) ∧
  ∀ s t : State, step s = .next t → s.noResetNext = true → t.input ≠ s.input →
    ∃ (e : HostEvent) (rest : List HostEvent) (width : Width) (v : Word), s.pending = e :: rest ∧ s.seq = .idle ∧
      ((∃ off, e = .access (.write .input width off v)) ∨ ∃ addr, e = .bus width addr (some v))

/-- Host accesses of OUT (20_memory.md section 2). Writes are ignored and are no errors; while IDLE each byte that a
read of either width takes from below OUT_LEN is the stored byte; each byte from at or above OUT_LEN, and every byte
while BUSY, is a free value (log entry 3); the widths and alignments are those of IN. -/
def Obligations.HostAccessesOfOutput : Prop :=
  (∀ (s t : State) (width : Width) (off : Nat) (v : Word), hostAccess (.write .output width off v) s = .ok t →
    t = { s with response := .written }) ∧
  (∀ (capacity : Nat) (width : Width) (off : Nat),
    busError capacity .output width off = busError capacity .input width off) ∧
  (∀ (s : State) (off : Nat), off < s.params.capacity → ∃ b : Byte,
    hostAccess (.read .output .w8 off) s = .ok { s with response := .byte b, draws := s.draws + 1 } ∧
    (∀ x, s.seq = .idle → off < s.outLen.toNat → s.output.read off = some x → b = x) ∧
    (s.outLen.toNat ≤ off ∨ s.isBusy = true → b = Config.freeByte s.draws off)) ∧
  ∀ (s : State) (m : Nat), 4 * m + 3 < s.params.capacity → ∃ w : Word,
    hostAccess (.read .output .w32 (4 * m)) s = .ok { s with response := .word w, draws := s.draws + 1 } ∧
    ∀ i, i < 4 →
      (∀ x, s.seq = .idle → 4 * m + i < s.outLen.toNat → s.output.read (4 * m + i) = some x →
        w.extractLsb' (8 * i) 8 = x) ∧
      (s.outLen.toNat ≤ 4 * m + i ∨ s.isBusy = true →
        w.extractLsb' (8 * i) 8 = Config.freeByte s.draws (4 * m + i))

/-- 20_memory.md R56: the byte order of 32-bit accesses. A 32-bit read of IN or OUT gives the four bytes with the one
at offset `4m` in bits 7:0, and a 32-bit write of IN stores them so; the example of the rule. -/
def Obligations.HostWordsAreLittleEndian : Prop :=
  (∀ (s : State) (m : Nat) (b0 b1 b2 b3 : Byte), 4 * m + 3 < s.params.capacity →
    (s.input.read (4 * m) = some b0 → s.input.read (4 * m + 1) = some b1 → s.input.read (4 * m + 2) = some b2 →
      s.input.read (4 * m + 3) = some b3 → ∃ t : State, hostAccess (.read .input .w32 (4 * m)) s = .ok t ∧
        t.response = .word (b3 ++ b2 ++ b1 ++ b0)) ∧
    (s.seq = .idle → 4 * m + 3 < s.outLen.toNat → s.output.read (4 * m) = some b0 →
      s.output.read (4 * m + 1) = some b1 → s.output.read (4 * m + 2) = some b2 →
      s.output.read (4 * m + 3) = some b3 → ∃ t : State, hostAccess (.read .output .w32 (4 * m)) s = .ok t ∧
        t.response = .word (b3 ++ b2 ++ b1 ++ b0))) ∧
  (∀ (s : State) (m : Nat) (v : Word), s.seq = .idle → 4 * m + 3 < s.params.capacity →
    ∃ t : State, hostAccess (.write .input .w32 (4 * m) v) s = .ok t ∧
      ∀ i, i < 4 → t.input.read (4 * m + i) = some (v.extractLsb' (8 * i) 8)) ∧
  ∀ s : State, s.seq = .idle → 30 ≤ s.params.capacity →
    ∃ t u : State, hostAccess (.write .input .w32 0 0x44332211) s = .ok t ∧
      hostAccess (.read .input .w8 1) t = .ok u ∧ u.response = .byte 0x22

/-- 20_memory.md R55: exactly these accesses are bus errors, and each is a fault of the access, for reads and writes
alike. That a register offset from 0x40 on is one is log entry 6. -/
def Obligations.BusErrorsAreExactlyThese : Prop :=
  ∀ (s : State) (space : Space) (width : Width) (off : Nat) (v : Word),
    let bad := (width = .w32 ∧ off % 4 ≠ 0) ∨ (width = .w8 ∧ space = .reg) ∨ width = .w16 ∨
      (space = .reg ∧ 0x40 ≤ off) ∨ (space ≠ .reg ∧ s.params.capacity ≤ off) ∨
      (space ≠ .reg ∧ width = .w32 ∧ s.params.capacity ≤ off + 3)
    ((∃ e : BusError, hostAccess (.read space width off) s = .error (.busError e)) ↔ bad) ∧
    ((∃ e : BusError, hostAccess (.write space width off v) s = .error (.busError e)) ↔ bad) ∧
    (¬bad → (∃ t : State, hostAccess (.read space width off) s = .ok t) ∧
      ∃ t : State, hostAccess (.write space width off v) s = .ok t)

/-- 60_exceptions.md R187: an access that is a bus error is answered on the bus, and the step that answers it changes
nothing else of the block, in either phase; a command's waiting goes on. That the block goes on is log entry 5. -/
def Obligations.BusErrorChangesNoState : Prop :=
  ∀ (s : State) (a : Access) (rest : List HostEvent) (e : BusError), s.pending = .access a :: rest →
    hostAccess a s = .error (.busError e) →
    (s.seq = .idle → step s = .next { s with pending := rest, response := .error e }) ∧
    (∀ (sn : Snapshot) (wait : Nat), s.seq = .busy sn (wait + 1) →
      step s = .next { s with pending := rest, response := .error e, seq := .busy sn wait }) ∧
    irq { s with pending := rest, response := .error e } = irq s

/-- No read has a side effect: a read of any space changes the bus answer, and of the model's own fields the count of
draws, and nothing else; a register read again reads the same (20_memory.md section 4). -/
def Obligations.ReadsHaveNoSideEffect : Prop :=
  ∀ (s t : State) (space : Space) (width : Width) (off : Nat), hostAccess (.read space width off) s = .ok t →
    t = { s with response := t.response, draws := t.draws } ∧
    (space = .reg → ∃ u : State, hostAccess (.read space width off) t = .ok u ∧ u.response = t.response) ∧
    ∀ a : Nat, t.input.read a = s.input.read a ∧ t.output.read a = s.output.read a

/-- A bus address in a window names that window and the address less its base, an address in no window names none, and
an access by bus address is the access of the window and offset it names (00_scope.md section 3). -/
def Obligations.WindowsLocateTheirOffsets : Prop :=
  ∀ p : Config.Params, p.legal = true →
    (∀ (space : Space) (off : Nat), off < windowSize p space → locate p (windowBase p space + off) = some (space, off)) ∧
    (∀ addr : Nat, locate p addr = none ↔
      ∀ space : Space, addr < windowBase p space ∨ windowBase p space + windowSize p space ≤ addr) ∧
    ∀ (s : State) (space : Space) (width : Width) (off : Nat) (v : Word), s.params = p → off < windowSize p space →
      busAccess width (windowBase p space + off) (some v) s = answerAccess (.write space width off v) s ∧
      busAccess width (windowBase p space + off) none s = answerAccess (.read space width off) s

/-! ### Interrupt and reset -/

/-- 60_exceptions.md R190: the line is IE and DONE. It is IE after every completion, 1 after a write that sets IE
while DONE is 1, and 0 after the host clears DONE, after a start, after the host clears IE, and after reset. -/
def Obligations.InterruptLineIsEnableAndDone : Prop :=
  (∀ s : State, irq s = (s.ie && s.done)) ∧
  (∀ (w : Word) (s : State), ∃ t : State, completionStep w s = .next t ∧ t.done = true ∧ irq t = s.ie) ∧
  (∀ (s t : State) (v : Word), hostAccess (.write .reg .w32 0x00 v) s = .ok t →
    (v.getLsbD 0 = false → v.getLsbD 1 = true → irq t = s.done) ∧
    (v.getLsbD 0 = true → s.isBusy = false → irq t = false) ∧ (v.getLsbD 1 = false → irq t = false)) ∧
  (∀ (s t : State) (v : Word), v.getLsbD 1 = true → hostAccess (.write .reg .w32 0x04 v) s = .ok t → irq t = false) ∧
  ∀ (s t : State), s.noResetNext = false → step s = .next t → irq t = false

/-- 70_reset_and_hazards.md R210: what reset leaves, in the state after reset and after a reset event: the phase, every
register as the host reads it, the line, and both buffers without a defined byte. -/
def Obligations.ResetLeavesTheResetValues : Prop :=
  State.reset.params.legal = true ∧
  ∀ u : State, (u = State.reset ∨ ∃ s : State, s.params.legal = true ∧ s.noResetNext = false ∧ step s = .next u) →
    u.seq = .idle ∧ irq u = false ∧
    (∀ off : Nat, off ∈ [0x00, 0x04, 0x08, 0x0C, 0x10, 0x14, 0x18, 0x1C, 0x20, 0x24, 0x28, 0x2C, 0x30, 0x38, 0x3C] →
      hostAccess (.read .reg .w32 off) u = .ok { u with response := .word 0 }) ∧
    (∃ w : Word, hostAccess (.read .reg .w32 0x34) u = .ok { u with response := .word w } ∧
      w.toNat = u.params.capacity) ∧
    ∀ a : Nat, u.input.read a = none ∧ u.output.read a = none

/-- 70_reset_and_hazards.md R212: a reset, and so one while BUSY, goes before everything else pending: no completion
happens, the line is 0, and the state is that of reset, with both buffers undefined and the parameters and the further
events kept (log entry 12). -/
def Obligations.ResetAbandonsTheRunningCommand : Prop :=
  ∀ (s : State) (rest : List HostEvent), s.pending = .reset :: rest →
    ∃ t : State, step s = .next t ∧
      t = { State.reset with params := s.params, pending := rest, draws := t.draws } ∧ t.isBusy = false ∧
      irq t = false ∧ ∀ a : Nat, inByte t a = Config.freeByte t.draws a ∧ outByte t a = Config.freeByte t.draws a
end

