-- ==== Sys2Proof/Laws/Memory.lean ====
section
/-! SUPPORT. The laws of buffers: a read after a write, the canonical form and the bound every operation keeps, and
that canonical buffers with the same reads are the same list. -/

namespace Sys2Proof.Machine

/-! ### Reads -/

theorem Memory.read_write_same (m : Memory) (a : Nat) (v : Byte) : (m.write a v).read a = some v := by
  induction m with
  | nil => simp [Memory.write, Memory.read]
  | cons c m ih =>
    obtain ⟨k, b⟩ := c
    unfold Memory.write
    split_ifs with h1 h2
    · simp [Memory.read]
    · simp [Memory.read]
    · have : k ≠ a := fun h => h2 h.symm
      simp [Memory.read, this, ih]

theorem Memory.read_write_ne (m : Memory) {a x : Nat} (v : Byte) (h : x ≠ a) : (m.write a v).read x = m.read x := by
  have h' : a ≠ x := h.symm
  induction m with
  | nil => simp [Memory.write, Memory.read, h']
  | cons c m ih =>
    obtain ⟨k, b⟩ := c
    unfold Memory.write
    split_ifs with h1 h2
    · simp [Memory.read, h']
    · subst h2; simp [Memory.read, h']
    · simp [Memory.read, ih]

theorem Memory.read_writeBytes_outside (bs : List Byte) (m : Memory) (a x : Nat)
    (h : x < a ∨ a + bs.length ≤ x) : (m.writeBytes a bs).read x = m.read x := by
  induction bs generalizing m a with
  | nil => rfl
  | cons b bs ih =>
    simp only [List.length_cons] at h
    rw [Memory.writeBytes, ih _ _ (by omega), Memory.read_write_ne _ _ (by omega)]

theorem Memory.read_writeBytes (bs : List Byte) (m : Memory) (a i : Nat) (h : i < bs.length) :
    (m.writeBytes a bs).read (a + i) = bs[i]? := by
  induction bs generalizing m a i with
  | nil => simp at h
  | cons b bs ih =>
    rw [Memory.writeBytes]
    cases i with
    | zero =>
      rw [Memory.read_writeBytes_outside _ _ _ _ (by omega)]
      simp [Memory.read_write_same]
    | succ i =>
      have := ih (m.write a b) (a + 1) i (by simpa using h)
      rw [show a + (i + 1) = a + 1 + i by omega, this]
      simp

/-! ### The canonical form -/

theorem Memory.risingFrom_mono {lo lo' : Nat} {m : Memory} (hle : lo ≤ lo') (h : m.risingFrom lo' = true) :
    m.risingFrom lo = true := by
  cases m with
  | nil => rfl
  | cons c m =>
    obtain ⟨k, b⟩ := c
    simp only [Memory.risingFrom, Bool.and_eq_true, decide_eq_true_eq] at h ⊢
    exact ⟨by omega, h.2⟩

theorem Memory.risingFrom_write (m : Memory) (lo a : Nat) (v : Byte) (h : m.risingFrom lo = true) (hlo : lo ≤ a) :
    (m.write a v).risingFrom lo = true := by
  induction m generalizing lo with
  | nil => simp [Memory.write, Memory.risingFrom, hlo]
  | cons c m ih =>
    obtain ⟨k, b⟩ := c
    simp only [Memory.risingFrom, Bool.and_eq_true, decide_eq_true_eq] at h
    unfold Memory.write
    split_ifs with h1 h2
    · simp [Memory.risingFrom, hlo, h.2]; omega
    · subst h2; simp [Memory.risingFrom, hlo, h.2]
    · simp only [Memory.risingFrom, Bool.and_eq_true, decide_eq_true_eq]
      exact ⟨h.1, ih _ h.2 (by omega)⟩

theorem Memory.wf_write (m : Memory) (a : Nat) (v : Byte) (h : m.wf = true) : (m.write a v).wf = true :=
  Memory.risingFrom_write m 0 a v h (Nat.zero_le a)

theorem Memory.wf_writeBytes (bs : List Byte) (m : Memory) (a : Nat) (h : m.wf = true) :
    (m.writeBytes a bs).wf = true := by
  induction bs generalizing m a with
  | nil => exact h
  | cons b bs ih => exact ih _ _ (Memory.wf_write m a b h)

theorem Memory.read_eq_none_of_lt {lo x : Nat} {m : Memory} (h : m.risingFrom lo = true) (hx : x < lo) :
    m.read x = none := by
  induction m generalizing lo with
  | nil => rfl
  | cons c m ih =>
    obtain ⟨k, b⟩ := c
    simp only [Memory.risingFrom, Bool.and_eq_true, decide_eq_true_eq] at h
    have : k ≠ x := by omega
    simp only [Memory.read, this, if_false]
    exact ih h.2 (by omega)

theorem Memory.risingFrom_ext {lo : Nat} {m m' : Memory} (h : m.risingFrom lo = true)
    (h' : m'.risingFrom lo = true) (hr : ∀ a, m.read a = m'.read a) : m = m' := by
  induction m generalizing lo m' with
  | nil =>
    cases m' with
    | nil => rfl
    | cons c m' => have := hr c.1; simp [Memory.read] at this
  | cons c m ih =>
    obtain ⟨k, b⟩ := c
    cases m' with
    | nil => have := hr k; simp [Memory.read] at this
    | cons c' m' =>
      obtain ⟨k', b'⟩ := c'
      simp only [Memory.risingFrom, Bool.and_eq_true, decide_eq_true_eq] at h h'
      have hk : k = k' := by
        rcases Nat.lt_trichotomy k k' with hlt | heq | hgt
        · have := hr k
          rw [Memory.read_eq_none_of_lt (lo := k') (m := (k', b') :: m') (by simp [Memory.risingFrom, h'.2]) hlt] at this
          simp [Memory.read] at this
        · exact heq
        · have := hr k'
          rw [Memory.read_eq_none_of_lt (lo := k) (m := (k, b) :: m) (by simp [Memory.risingFrom, h.2]) hgt] at this
          simp [Memory.read] at this
      subst hk
      have hb : b = b' := by simpa [Memory.read] using hr k
      subst hb
      have : m = m' := ih h.2 h'.2 fun a => by
        by_cases hka : k = a
        · subst hka
          rw [Memory.read_eq_none_of_lt h.2 (by omega), Memory.read_eq_none_of_lt h'.2 (by omega)]
        · have := hr a
          simpa [Memory.read, hka] using this
      rw [this]

/-- Canonical buffers that read alike are the same list. -/
theorem Memory.ext_of_wf {m m' : Memory} (h : m.wf = true) (h' : m'.wf = true) (hr : ∀ a, m.read a = m'.read a) :
    m = m' :=
  Memory.risingFrom_ext h h' hr

/-! ### The bound -/

theorem Memory.below_write (m : Memory) (n a : Nat) (v : Byte) (h : m.below n = true) (ha : a < n) :
    (m.write a v).below n = true := by
  induction m with
  | nil => simp [Memory.write, Memory.below, ha]
  | cons c m ih =>
    obtain ⟨k, b⟩ := c
    simp only [Memory.below, List.all_cons, Bool.and_eq_true, decide_eq_true_eq] at h ih
    unfold Memory.write
    split_ifs
    · simpa [Memory.below, ha] using h
    · simpa [Memory.below, ha] using h.2
    · simpa [Memory.below] using ⟨h.1, by simpa using ih h.2⟩

theorem Memory.below_writeBytes (bs : List Byte) (m : Memory) (n a : Nat) (h : m.below n = true)
    (ha : a + bs.length ≤ n) : (m.writeBytes a bs).below n = true := by
  induction bs generalizing m a with
  | nil => exact h
  | cons b bs ih =>
    simp only [List.length_cons] at ha
    exact ih _ _ (Memory.below_write m n a b h (by omega)) (by omega)

/-- A legal buffer stays legal when bytes are stored inside it. -/
theorem Memory.Legal.writeBytes {capacity : Nat} {m : Memory} (h : m.Legal capacity) (a : Nat) (bs : List Byte)
    (ha : a + bs.length ≤ capacity) : (Memory.writeBytes m a bs).Legal capacity :=
  ⟨Memory.wf_writeBytes bs m a h.wf, Memory.below_writeBytes bs m capacity a h.below ha⟩

theorem Memory.Legal.empty (capacity : Nat) : Memory.Legal capacity [] := ⟨rfl, rfl⟩

theorem Memory.byteOr_of_read (m : Memory) (draw a : Nat) (b : Byte) (h : m.read a = some b) :
    m.byteOr draw a = b := by
  simp [Memory.byteOr, h]

end Sys2Proof.Machine
end

