-- ==== Sys2Proof/Laws/State.lean ====
section
/-! SUPPORT. One lemma per field of State for each named update: what the update makes of the field. -/

namespace Sys2Proof.Machine

/-! ### `completionFlags` -/

@[simp] theorem completionFlags_params (c : ErrorCode) (s : State) : (completionFlags c s).params = s.params := rfl
@[simp] theorem completionFlags_seq (c : ErrorCode) (s : State) : (completionFlags c s).seq = s.seq := rfl
@[simp] theorem completionFlags_ie (c : ErrorCode) (s : State) : (completionFlags c s).ie = s.ie := rfl
@[simp] theorem completionFlags_done (c : ErrorCode) (s : State) : (completionFlags c s).done = true := rfl
@[simp] theorem completionFlags_err (c : ErrorCode) (s : State) : (completionFlags c s).err = decide (c ≠ .none) := rfl
@[simp] theorem completionFlags_cmd (c : ErrorCode) (s : State) : (completionFlags c s).cmd = s.cmd := rfl
@[simp] theorem completionFlags_arg (c : ErrorCode) (s : State) : (completionFlags c s).arg = s.arg := rfl
@[simp] theorem completionFlags_inLen (c : ErrorCode) (s : State) : (completionFlags c s).inLen = s.inLen := rfl
@[simp] theorem completionFlags_errcode (c : ErrorCode) (s : State) : (completionFlags c s).errcode = s.errcode := rfl
@[simp] theorem completionFlags_result (c : ErrorCode) (s : State) : (completionFlags c s).result = s.result := rfl
@[simp] theorem completionFlags_dataOffset (c : ErrorCode) (s : State) : (completionFlags c s).dataOffset = s.dataOffset := rfl
@[simp] theorem completionFlags_width (c : ErrorCode) (s : State) : (completionFlags c s).width = s.width := rfl
@[simp] theorem completionFlags_height (c : ErrorCode) (s : State) : (completionFlags c s).height = s.height := rfl
@[simp] theorem completionFlags_bitDepth (c : ErrorCode) (s : State) : (completionFlags c s).bitDepth = s.bitDepth := rfl
@[simp] theorem completionFlags_bpp (c : ErrorCode) (s : State) : (completionFlags c s).bpp = s.bpp := rfl
@[simp] theorem completionFlags_outLen (c : ErrorCode) (s : State) : (completionFlags c s).outLen = s.outLen := rfl
@[simp] theorem completionFlags_input (c : ErrorCode) (s : State) : (completionFlags c s).input = s.input := rfl
@[simp] theorem completionFlags_output (c : ErrorCode) (s : State) : (completionFlags c s).output = s.output := rfl
@[simp] theorem completionFlags_response (c : ErrorCode) (s : State) : (completionFlags c s).response = s.response := rfl
@[simp] theorem completionFlags_pending (c : ErrorCode) (s : State) : (completionFlags c s).pending = s.pending := rfl
@[simp] theorem completionFlags_draws (c : ErrorCode) (s : State) : (completionFlags c s).draws = s.draws := rfl

/-! ### `complete` -/

@[simp] theorem complete_params (c : ErrorCode) (s : State) : (complete c s).params = s.params := rfl
@[simp] theorem complete_seq (c : ErrorCode) (s : State) : (complete c s).seq = .idle := rfl
@[simp] theorem complete_ie (c : ErrorCode) (s : State) : (complete c s).ie = s.ie := rfl
@[simp] theorem complete_done (c : ErrorCode) (s : State) : (complete c s).done = true := rfl
@[simp] theorem complete_err (c : ErrorCode) (s : State) : (complete c s).err = decide (c ≠ .none) := rfl
@[simp] theorem complete_cmd (c : ErrorCode) (s : State) : (complete c s).cmd = s.cmd := rfl
@[simp] theorem complete_arg (c : ErrorCode) (s : State) : (complete c s).arg = s.arg := rfl
@[simp] theorem complete_inLen (c : ErrorCode) (s : State) : (complete c s).inLen = s.inLen := rfl
@[simp] theorem complete_errcode (c : ErrorCode) (s : State) : (complete c s).errcode = c := rfl
@[simp] theorem complete_result (c : ErrorCode) (s : State) : (complete c s).result = s.result := rfl
@[simp] theorem complete_dataOffset (c : ErrorCode) (s : State) : (complete c s).dataOffset = s.dataOffset := rfl
@[simp] theorem complete_width (c : ErrorCode) (s : State) : (complete c s).width = s.width := rfl
@[simp] theorem complete_height (c : ErrorCode) (s : State) : (complete c s).height = s.height := rfl
@[simp] theorem complete_bitDepth (c : ErrorCode) (s : State) : (complete c s).bitDepth = s.bitDepth := rfl
@[simp] theorem complete_bpp (c : ErrorCode) (s : State) : (complete c s).bpp = s.bpp := rfl
@[simp] theorem complete_outLen (c : ErrorCode) (s : State) : (complete c s).outLen = s.outLen := rfl
@[simp] theorem complete_input (c : ErrorCode) (s : State) : (complete c s).input = s.input := rfl
@[simp] theorem complete_output (c : ErrorCode) (s : State) : (complete c s).output = s.output := rfl
@[simp] theorem complete_response (c : ErrorCode) (s : State) : (complete c s).response = s.response := rfl
@[simp] theorem complete_pending (c : ErrorCode) (s : State) : (complete c s).pending = s.pending := rfl
@[simp] theorem complete_draws (c : ErrorCode) (s : State) : (complete c s).draws = s.draws := rfl

/-! ### `raiseError` -/

@[simp] theorem raiseError_params (c : ErrorCode) (s : State) : (raiseError c s).params = s.params := rfl
@[simp] theorem raiseError_seq (c : ErrorCode) (s : State) : (raiseError c s).seq = .idle := rfl
@[simp] theorem raiseError_ie (c : ErrorCode) (s : State) : (raiseError c s).ie = s.ie := rfl
@[simp] theorem raiseError_done (c : ErrorCode) (s : State) : (raiseError c s).done = true := rfl
@[simp] theorem raiseError_err (c : ErrorCode) (s : State) : (raiseError c s).err = decide (c ≠ .none) := rfl
@[simp] theorem raiseError_cmd (c : ErrorCode) (s : State) : (raiseError c s).cmd = s.cmd := rfl
@[simp] theorem raiseError_arg (c : ErrorCode) (s : State) : (raiseError c s).arg = s.arg := rfl
@[simp] theorem raiseError_inLen (c : ErrorCode) (s : State) : (raiseError c s).inLen = s.inLen := rfl
@[simp] theorem raiseError_errcode (c : ErrorCode) (s : State) : (raiseError c s).errcode = c := rfl
@[simp] theorem raiseError_result (c : ErrorCode) (s : State) : (raiseError c s).result = s.result := rfl
@[simp] theorem raiseError_dataOffset (c : ErrorCode) (s : State) : (raiseError c s).dataOffset = s.dataOffset := rfl
@[simp] theorem raiseError_width (c : ErrorCode) (s : State) : (raiseError c s).width = s.width := rfl
@[simp] theorem raiseError_height (c : ErrorCode) (s : State) : (raiseError c s).height = s.height := rfl
@[simp] theorem raiseError_bitDepth (c : ErrorCode) (s : State) : (raiseError c s).bitDepth = s.bitDepth := rfl
@[simp] theorem raiseError_bpp (c : ErrorCode) (s : State) : (raiseError c s).bpp = s.bpp := rfl
@[simp] theorem raiseError_outLen (c : ErrorCode) (s : State) : (raiseError c s).outLen = s.outLen := rfl
@[simp] theorem raiseError_input (c : ErrorCode) (s : State) : (raiseError c s).input = s.input := rfl
@[simp] theorem raiseError_output (c : ErrorCode) (s : State) : (raiseError c s).output = s.output := rfl
@[simp] theorem raiseError_response (c : ErrorCode) (s : State) : (raiseError c s).response = s.response := rfl
@[simp] theorem raiseError_pending (c : ErrorCode) (s : State) : (raiseError c s).pending = s.pending := rfl
@[simp] theorem raiseError_draws (c : ErrorCode) (s : State) : (raiseError c s).draws = s.draws := rfl

/-! ### `clearStatus` -/

@[simp] theorem clearStatus_params (v : Word) (s : State) : (clearStatus v s).params = s.params := rfl
@[simp] theorem clearStatus_seq (v : Word) (s : State) : (clearStatus v s).seq = s.seq := rfl
@[simp] theorem clearStatus_ie (v : Word) (s : State) : (clearStatus v s).ie = s.ie := rfl
@[simp] theorem clearStatus_done (v : Word) (s : State) : (clearStatus v s).done = (s.done && !v.getLsbD 1) := rfl
@[simp] theorem clearStatus_err (v : Word) (s : State) : (clearStatus v s).err = (s.err && !v.getLsbD 2) := rfl
@[simp] theorem clearStatus_cmd (v : Word) (s : State) : (clearStatus v s).cmd = s.cmd := rfl
@[simp] theorem clearStatus_arg (v : Word) (s : State) : (clearStatus v s).arg = s.arg := rfl
@[simp] theorem clearStatus_inLen (v : Word) (s : State) : (clearStatus v s).inLen = s.inLen := rfl
@[simp] theorem clearStatus_errcode (v : Word) (s : State) : (clearStatus v s).errcode = s.errcode := rfl
@[simp] theorem clearStatus_result (v : Word) (s : State) : (clearStatus v s).result = s.result := rfl
@[simp] theorem clearStatus_dataOffset (v : Word) (s : State) : (clearStatus v s).dataOffset = s.dataOffset := rfl
@[simp] theorem clearStatus_width (v : Word) (s : State) : (clearStatus v s).width = s.width := rfl
@[simp] theorem clearStatus_height (v : Word) (s : State) : (clearStatus v s).height = s.height := rfl
@[simp] theorem clearStatus_bitDepth (v : Word) (s : State) : (clearStatus v s).bitDepth = s.bitDepth := rfl
@[simp] theorem clearStatus_bpp (v : Word) (s : State) : (clearStatus v s).bpp = s.bpp := rfl
@[simp] theorem clearStatus_outLen (v : Word) (s : State) : (clearStatus v s).outLen = s.outLen := rfl
@[simp] theorem clearStatus_input (v : Word) (s : State) : (clearStatus v s).input = s.input := rfl
@[simp] theorem clearStatus_output (v : Word) (s : State) : (clearStatus v s).output = s.output := rfl
@[simp] theorem clearStatus_response (v : Word) (s : State) : (clearStatus v s).response = s.response := rfl
@[simp] theorem clearStatus_pending (v : Word) (s : State) : (clearStatus v s).pending = s.pending := rfl
@[simp] theorem clearStatus_draws (v : Word) (s : State) : (clearStatus v s).draws = s.draws := rfl

/-! ### `startWith` -/

@[simp] theorem startWith_params (n : Nat) (s : State) : (startWith n s).params = s.params := rfl
@[simp] theorem startWith_seq (n : Nat) (s : State) : (startWith n s).seq = .busy (takeSnapshot s) n := rfl
@[simp] theorem startWith_ie (n : Nat) (s : State) : (startWith n s).ie = s.ie := rfl
@[simp] theorem startWith_done (n : Nat) (s : State) : (startWith n s).done = false := rfl
@[simp] theorem startWith_err (n : Nat) (s : State) : (startWith n s).err = false := rfl
@[simp] theorem startWith_cmd (n : Nat) (s : State) : (startWith n s).cmd = s.cmd := rfl
@[simp] theorem startWith_arg (n : Nat) (s : State) : (startWith n s).arg = s.arg := rfl
@[simp] theorem startWith_inLen (n : Nat) (s : State) : (startWith n s).inLen = s.inLen := rfl
@[simp] theorem startWith_errcode (n : Nat) (s : State) : (startWith n s).errcode = s.errcode := rfl
@[simp] theorem startWith_result (n : Nat) (s : State) : (startWith n s).result = s.result := rfl
@[simp] theorem startWith_dataOffset (n : Nat) (s : State) : (startWith n s).dataOffset = s.dataOffset := rfl
@[simp] theorem startWith_width (n : Nat) (s : State) : (startWith n s).width = s.width := rfl
@[simp] theorem startWith_height (n : Nat) (s : State) : (startWith n s).height = s.height := rfl
@[simp] theorem startWith_bitDepth (n : Nat) (s : State) : (startWith n s).bitDepth = s.bitDepth := rfl
@[simp] theorem startWith_bpp (n : Nat) (s : State) : (startWith n s).bpp = s.bpp := rfl
@[simp] theorem startWith_outLen (n : Nat) (s : State) : (startWith n s).outLen = s.outLen := rfl
@[simp] theorem startWith_input (n : Nat) (s : State) : (startWith n s).input = s.input := rfl
@[simp] theorem startWith_output (n : Nat) (s : State) : (startWith n s).output = s.output := rfl
@[simp] theorem startWith_response (n : Nat) (s : State) : (startWith n s).response = s.response := rfl
@[simp] theorem startWith_pending (n : Nat) (s : State) : (startWith n s).pending = s.pending := rfl
@[simp] theorem startWith_draws (n : Nat) (s : State) : (startWith n s).draws = s.draws + 1 := rfl

/-! ### `startCommand` -/

@[simp] theorem startCommand_params (s : State) : (startCommand s).params = s.params := rfl
@[simp] theorem startCommand_seq (s : State) : (startCommand s).seq =
    .busy (takeSnapshot s) (Config.latencyExtra s.draws s.cmd s.arg s.inLen s.input) := rfl
@[simp] theorem startCommand_ie (s : State) : (startCommand s).ie = s.ie := rfl
@[simp] theorem startCommand_done (s : State) : (startCommand s).done = false := rfl
@[simp] theorem startCommand_err (s : State) : (startCommand s).err = false := rfl
@[simp] theorem startCommand_cmd (s : State) : (startCommand s).cmd = s.cmd := rfl
@[simp] theorem startCommand_arg (s : State) : (startCommand s).arg = s.arg := rfl
@[simp] theorem startCommand_inLen (s : State) : (startCommand s).inLen = s.inLen := rfl
@[simp] theorem startCommand_errcode (s : State) : (startCommand s).errcode = s.errcode := rfl
@[simp] theorem startCommand_result (s : State) : (startCommand s).result = s.result := rfl
@[simp] theorem startCommand_dataOffset (s : State) : (startCommand s).dataOffset = s.dataOffset := rfl
@[simp] theorem startCommand_width (s : State) : (startCommand s).width = s.width := rfl
@[simp] theorem startCommand_height (s : State) : (startCommand s).height = s.height := rfl
@[simp] theorem startCommand_bitDepth (s : State) : (startCommand s).bitDepth = s.bitDepth := rfl
@[simp] theorem startCommand_bpp (s : State) : (startCommand s).bpp = s.bpp := rfl
@[simp] theorem startCommand_outLen (s : State) : (startCommand s).outLen = s.outLen := rfl
@[simp] theorem startCommand_input (s : State) : (startCommand s).input = s.input := rfl
@[simp] theorem startCommand_output (s : State) : (startCommand s).output = s.output := rfl
@[simp] theorem startCommand_response (s : State) : (startCommand s).response = s.response := rfl
@[simp] theorem startCommand_pending (s : State) : (startCommand s).pending = s.pending := rfl
@[simp] theorem startCommand_draws (s : State) : (startCommand s).draws = s.draws + 1 := rfl

/-! ### `respond` -/

@[simp] theorem respond_params (r : Response) (s : State) : (respond r s).params = s.params := rfl
@[simp] theorem respond_seq (r : Response) (s : State) : (respond r s).seq = s.seq := rfl
@[simp] theorem respond_ie (r : Response) (s : State) : (respond r s).ie = s.ie := rfl
@[simp] theorem respond_done (r : Response) (s : State) : (respond r s).done = s.done := rfl
@[simp] theorem respond_err (r : Response) (s : State) : (respond r s).err = s.err := rfl
@[simp] theorem respond_cmd (r : Response) (s : State) : (respond r s).cmd = s.cmd := rfl
@[simp] theorem respond_arg (r : Response) (s : State) : (respond r s).arg = s.arg := rfl
@[simp] theorem respond_inLen (r : Response) (s : State) : (respond r s).inLen = s.inLen := rfl
@[simp] theorem respond_errcode (r : Response) (s : State) : (respond r s).errcode = s.errcode := rfl
@[simp] theorem respond_result (r : Response) (s : State) : (respond r s).result = s.result := rfl
@[simp] theorem respond_dataOffset (r : Response) (s : State) : (respond r s).dataOffset = s.dataOffset := rfl
@[simp] theorem respond_width (r : Response) (s : State) : (respond r s).width = s.width := rfl
@[simp] theorem respond_height (r : Response) (s : State) : (respond r s).height = s.height := rfl
@[simp] theorem respond_bitDepth (r : Response) (s : State) : (respond r s).bitDepth = s.bitDepth := rfl
@[simp] theorem respond_bpp (r : Response) (s : State) : (respond r s).bpp = s.bpp := rfl
@[simp] theorem respond_outLen (r : Response) (s : State) : (respond r s).outLen = s.outLen := rfl
@[simp] theorem respond_input (r : Response) (s : State) : (respond r s).input = s.input := rfl
@[simp] theorem respond_output (r : Response) (s : State) : (respond r s).output = s.output := rfl
@[simp] theorem respond_response (r : Response) (s : State) : (respond r s).response = r := rfl
@[simp] theorem respond_pending (r : Response) (s : State) : (respond r s).pending = s.pending := rfl
@[simp] theorem respond_draws (r : Response) (s : State) : (respond r s).draws = s.draws := rfl

/-! ### `respondDrawn` -/

@[simp] theorem respondDrawn_params (r : Response) (s : State) : (respondDrawn r s).params = s.params := rfl
@[simp] theorem respondDrawn_seq (r : Response) (s : State) : (respondDrawn r s).seq = s.seq := rfl
@[simp] theorem respondDrawn_ie (r : Response) (s : State) : (respondDrawn r s).ie = s.ie := rfl
@[simp] theorem respondDrawn_done (r : Response) (s : State) : (respondDrawn r s).done = s.done := rfl
@[simp] theorem respondDrawn_err (r : Response) (s : State) : (respondDrawn r s).err = s.err := rfl
@[simp] theorem respondDrawn_cmd (r : Response) (s : State) : (respondDrawn r s).cmd = s.cmd := rfl
@[simp] theorem respondDrawn_arg (r : Response) (s : State) : (respondDrawn r s).arg = s.arg := rfl
@[simp] theorem respondDrawn_inLen (r : Response) (s : State) : (respondDrawn r s).inLen = s.inLen := rfl
@[simp] theorem respondDrawn_errcode (r : Response) (s : State) : (respondDrawn r s).errcode = s.errcode := rfl
@[simp] theorem respondDrawn_result (r : Response) (s : State) : (respondDrawn r s).result = s.result := rfl
@[simp] theorem respondDrawn_dataOffset (r : Response) (s : State) : (respondDrawn r s).dataOffset = s.dataOffset := rfl
@[simp] theorem respondDrawn_width (r : Response) (s : State) : (respondDrawn r s).width = s.width := rfl
@[simp] theorem respondDrawn_height (r : Response) (s : State) : (respondDrawn r s).height = s.height := rfl
@[simp] theorem respondDrawn_bitDepth (r : Response) (s : State) : (respondDrawn r s).bitDepth = s.bitDepth := rfl
@[simp] theorem respondDrawn_bpp (r : Response) (s : State) : (respondDrawn r s).bpp = s.bpp := rfl
@[simp] theorem respondDrawn_outLen (r : Response) (s : State) : (respondDrawn r s).outLen = s.outLen := rfl
@[simp] theorem respondDrawn_input (r : Response) (s : State) : (respondDrawn r s).input = s.input := rfl
@[simp] theorem respondDrawn_output (r : Response) (s : State) : (respondDrawn r s).output = s.output := rfl
@[simp] theorem respondDrawn_response (r : Response) (s : State) : (respondDrawn r s).response = r := rfl
@[simp] theorem respondDrawn_pending (r : Response) (s : State) : (respondDrawn r s).pending = s.pending := rfl
@[simp] theorem respondDrawn_draws (r : Response) (s : State) : (respondDrawn r s).draws = s.draws + 1 := rfl

/-! ### `storeImage` -/

@[simp] theorem storeImage_params (f : Channel) (sn : Snapshot) (h : Header) (s : State) : (storeImage f sn h s).params = s.params := rfl
@[simp] theorem storeImage_seq (f : Channel) (sn : Snapshot) (h : Header) (s : State) : (storeImage f sn h s).seq = s.seq := rfl
@[simp] theorem storeImage_ie (f : Channel) (sn : Snapshot) (h : Header) (s : State) : (storeImage f sn h s).ie = s.ie := rfl
@[simp] theorem storeImage_done (f : Channel) (sn : Snapshot) (h : Header) (s : State) : (storeImage f sn h s).done = s.done := rfl
@[simp] theorem storeImage_err (f : Channel) (sn : Snapshot) (h : Header) (s : State) : (storeImage f sn h s).err = s.err := rfl
@[simp] theorem storeImage_cmd (f : Channel) (sn : Snapshot) (h : Header) (s : State) : (storeImage f sn h s).cmd = s.cmd := rfl
@[simp] theorem storeImage_arg (f : Channel) (sn : Snapshot) (h : Header) (s : State) : (storeImage f sn h s).arg = s.arg := rfl
@[simp] theorem storeImage_inLen (f : Channel) (sn : Snapshot) (h : Header) (s : State) : (storeImage f sn h s).inLen = s.inLen := rfl
@[simp] theorem storeImage_errcode (f : Channel) (sn : Snapshot) (h : Header) (s : State) : (storeImage f sn h s).errcode = s.errcode := rfl
@[simp] theorem storeImage_result (f : Channel) (sn : Snapshot) (h : Header) (s : State) : (storeImage f sn h s).result = s.result := rfl
@[simp] theorem storeImage_dataOffset (f : Channel) (sn : Snapshot) (h : Header) (s : State) : (storeImage f sn h s).dataOffset = s.dataOffset := rfl
@[simp] theorem storeImage_width (f : Channel) (sn : Snapshot) (h : Header) (s : State) : (storeImage f sn h s).width = s.width := rfl
@[simp] theorem storeImage_height (f : Channel) (sn : Snapshot) (h : Header) (s : State) : (storeImage f sn h s).height = s.height := rfl
@[simp] theorem storeImage_bitDepth (f : Channel) (sn : Snapshot) (h : Header) (s : State) : (storeImage f sn h s).bitDepth = s.bitDepth := rfl
@[simp] theorem storeImage_bpp (f : Channel) (sn : Snapshot) (h : Header) (s : State) : (storeImage f sn h s).bpp = s.bpp := rfl
@[simp] theorem storeImage_outLen (f : Channel) (sn : Snapshot) (h : Header) (s : State) : (storeImage f sn h s).outLen = sn.inLen := rfl
@[simp] theorem storeImage_input (f : Channel) (sn : Snapshot) (h : Header) (s : State) : (storeImage f sn h s).input = s.input := rfl
@[simp] theorem storeImage_output (f : Channel) (sn : Snapshot) (h : Header) (s : State) : (storeImage f sn h s).output = s.output.writeBytes 0 (packedImage f sn h) := rfl
@[simp] theorem storeImage_response (f : Channel) (sn : Snapshot) (h : Header) (s : State) : (storeImage f sn h s).response = s.response := rfl
@[simp] theorem storeImage_pending (f : Channel) (sn : Snapshot) (h : Header) (s : State) : (storeImage f sn h s).pending = s.pending := rfl
@[simp] theorem storeImage_draws (f : Channel) (sn : Snapshot) (h : Header) (s : State) : (storeImage f sn h s).draws = s.draws := rfl

/-! ### `commitHeader` -/

@[simp] theorem commitHeader_params (h : Header) (s : State) : (commitHeader h s).params = s.params := rfl
@[simp] theorem commitHeader_seq (h : Header) (s : State) : (commitHeader h s).seq = s.seq := rfl
@[simp] theorem commitHeader_ie (h : Header) (s : State) : (commitHeader h s).ie = s.ie := rfl
@[simp] theorem commitHeader_done (h : Header) (s : State) : (commitHeader h s).done = s.done := rfl
@[simp] theorem commitHeader_err (h : Header) (s : State) : (commitHeader h s).err = s.err := rfl
@[simp] theorem commitHeader_cmd (h : Header) (s : State) : (commitHeader h s).cmd = s.cmd := rfl
@[simp] theorem commitHeader_arg (h : Header) (s : State) : (commitHeader h s).arg = s.arg := rfl
@[simp] theorem commitHeader_inLen (h : Header) (s : State) : (commitHeader h s).inLen = s.inLen := rfl
@[simp] theorem commitHeader_errcode (h : Header) (s : State) : (commitHeader h s).errcode = s.errcode := rfl
@[simp] theorem commitHeader_result (h : Header) (s : State) : (commitHeader h s).result = s.result := rfl
@[simp] theorem commitHeader_dataOffset (h : Header) (s : State) : (commitHeader h s).dataOffset = BitVec.ofNat 32 h.dataOffset := rfl
@[simp] theorem commitHeader_width (h : Header) (s : State) : (commitHeader h s).width = BitVec.ofNat 32 h.width := rfl
@[simp] theorem commitHeader_height (h : Header) (s : State) : (commitHeader h s).height = BitVec.ofNat 32 h.height := rfl
@[simp] theorem commitHeader_bitDepth (h : Header) (s : State) : (commitHeader h s).bitDepth = BitVec.ofNat 16 h.bitDepth := rfl
@[simp] theorem commitHeader_bpp (h : Header) (s : State) : (commitHeader h s).bpp = BitVec.ofNat 3 (bytesPerPixel h) := rfl
@[simp] theorem commitHeader_outLen (h : Header) (s : State) : (commitHeader h s).outLen = s.outLen := rfl
@[simp] theorem commitHeader_input (h : Header) (s : State) : (commitHeader h s).input = s.input := rfl
@[simp] theorem commitHeader_output (h : Header) (s : State) : (commitHeader h s).output = s.output := rfl
@[simp] theorem commitHeader_response (h : Header) (s : State) : (commitHeader h s).response = s.response := rfl
@[simp] theorem commitHeader_pending (h : Header) (s : State) : (commitHeader h s).pending = s.pending := rfl
@[simp] theorem commitHeader_draws (h : Header) (s : State) : (commitHeader h s).draws = s.draws := rfl

/-! ### `takeReset` -/

@[simp] theorem takeReset_params (s : State) : (takeReset s).params = s.params := rfl
@[simp] theorem takeReset_seq (s : State) : (takeReset s).seq = .idle := rfl
@[simp] theorem takeReset_ie (s : State) : (takeReset s).ie = false := rfl
@[simp] theorem takeReset_done (s : State) : (takeReset s).done = false := rfl
@[simp] theorem takeReset_err (s : State) : (takeReset s).err = false := rfl
@[simp] theorem takeReset_cmd (s : State) : (takeReset s).cmd = 0 := rfl
@[simp] theorem takeReset_arg (s : State) : (takeReset s).arg = 0 := rfl
@[simp] theorem takeReset_inLen (s : State) : (takeReset s).inLen = 0 := rfl
@[simp] theorem takeReset_errcode (s : State) : (takeReset s).errcode = .none := rfl
@[simp] theorem takeReset_result (s : State) : (takeReset s).result = 0 := rfl
@[simp] theorem takeReset_dataOffset (s : State) : (takeReset s).dataOffset = 0 := rfl
@[simp] theorem takeReset_width (s : State) : (takeReset s).width = 0 := rfl
@[simp] theorem takeReset_height (s : State) : (takeReset s).height = 0 := rfl
@[simp] theorem takeReset_bitDepth (s : State) : (takeReset s).bitDepth = 0 := rfl
@[simp] theorem takeReset_bpp (s : State) : (takeReset s).bpp = 0 := rfl
@[simp] theorem takeReset_outLen (s : State) : (takeReset s).outLen = 0 := rfl
@[simp] theorem takeReset_input (s : State) : (takeReset s).input = [] := rfl
@[simp] theorem takeReset_output (s : State) : (takeReset s).output = [] := rfl
@[simp] theorem takeReset_response (s : State) : (takeReset s).response = .none := rfl
@[simp] theorem takeReset_pending (s : State) : (takeReset s).pending = s.pending := rfl
@[simp] theorem takeReset_draws (s : State) : (takeReset s).draws = s.draws := rfl

/-! ### `tick` -/

@[simp] theorem tick_params (s : State) : (tick s).params = s.params := by
  unfold tick; split <;> rfl
@[simp] theorem tick_ie (s : State) : (tick s).ie = s.ie := by
  unfold tick; split <;> rfl
@[simp] theorem tick_done (s : State) : (tick s).done = s.done := by
  unfold tick; split <;> rfl
@[simp] theorem tick_err (s : State) : (tick s).err = s.err := by
  unfold tick; split <;> rfl
@[simp] theorem tick_cmd (s : State) : (tick s).cmd = s.cmd := by
  unfold tick; split <;> rfl
@[simp] theorem tick_arg (s : State) : (tick s).arg = s.arg := by
  unfold tick; split <;> rfl
@[simp] theorem tick_inLen (s : State) : (tick s).inLen = s.inLen := by
  unfold tick; split <;> rfl
@[simp] theorem tick_errcode (s : State) : (tick s).errcode = s.errcode := by
  unfold tick; split <;> rfl
@[simp] theorem tick_result (s : State) : (tick s).result = s.result := by
  unfold tick; split <;> rfl
@[simp] theorem tick_dataOffset (s : State) : (tick s).dataOffset = s.dataOffset := by
  unfold tick; split <;> rfl
@[simp] theorem tick_width (s : State) : (tick s).width = s.width := by
  unfold tick; split <;> rfl
@[simp] theorem tick_height (s : State) : (tick s).height = s.height := by
  unfold tick; split <;> rfl
@[simp] theorem tick_bitDepth (s : State) : (tick s).bitDepth = s.bitDepth := by
  unfold tick; split <;> rfl
@[simp] theorem tick_bpp (s : State) : (tick s).bpp = s.bpp := by
  unfold tick; split <;> rfl
@[simp] theorem tick_outLen (s : State) : (tick s).outLen = s.outLen := by
  unfold tick; split <;> rfl
@[simp] theorem tick_input (s : State) : (tick s).input = s.input := by
  unfold tick; split <;> rfl
@[simp] theorem tick_output (s : State) : (tick s).output = s.output := by
  unfold tick; split <;> rfl
@[simp] theorem tick_response (s : State) : (tick s).response = s.response := by
  unfold tick; split <;> rfl
@[simp] theorem tick_pending (s : State) : (tick s).pending = s.pending := by
  unfold tick; split <;> rfl
@[simp] theorem tick_draws (s : State) : (tick s).draws = s.draws := by
  unfold tick; split <;> rfl

@[simp] theorem tick_isBusy (s : State) : (tick s).isBusy = s.isBusy := by
  rcases hs : s.seq with _ | ⟨sn, _ | n⟩ <;> simp [tick, State.isBusy, hs]

theorem tick_of_idle (s : State) (h : s.seq = .idle) : tick s = s := by
  simp [tick, h]

theorem tick_of_busy (s : State) (sn : Snapshot) (n : Nat) (h : s.seq = .busy sn (n + 1)) :
    tick s = { s with seq := .busy sn n } := by
  simp [tick, h]

/-! ### The phase and the operands -/

theorem isBusy_eq_false (s : State) : s.isBusy = false ↔ s.seq = .idle := by
  unfold State.isBusy; split <;> simp_all

theorem isBusy_eq_true (s : State) : s.isBusy = true ↔ ∃ sn n, s.seq = .busy sn n := by
  unfold State.isBusy; split <;> simp_all

theorem operands_of_busy (s : State) (sn : Snapshot) (n : Nat) (h : s.seq = .busy sn n) : s.operands = sn := by
  simp [State.operands, h]

theorem operands_of_idle (s : State) (h : s.seq = .idle) : s.operands = takeSnapshot s := by
  simp [State.operands, h]

end Sys2Proof.Machine
end

