-- ==== Sys2Proof/Laws/Bus.lean ====
section
/-! SUPPORT. What a host access can do, said once: it answers only, or it is one of the writes that change the block. -/

namespace Sys2Proof.Machine

/-- Everything a host access leaves of a state: only the bus answer and the count of draws change, or it is a write of
CTRL, of STATUS, of an operand register of an IDLE block, or of IN of an IDLE block inside its capacity. -/
inductive AccessEffect (s : State) : Access → State → Prop where
  | answered (a : Access) (r : Response) (d : Nat) : AccessEffect s a { s with response := r, draws := d }
  | ctrl (v : Word) : AccessEffect s (.write .reg .w32 0 v) (respond .written (writeCtrl v s))
  | status (off : Nat) (v : Word) : AccessEffect s (.write .reg .w32 off v) (respond .written (clearStatus v s))
  | cmd (off : Nat) (v : Word) (idle : s.seq = .idle) :
      AccessEffect s (.write .reg .w32 off v) { s with cmd := v, response := .written }
  | arg (off : Nat) (v : Word) (idle : s.seq = .idle) :
      AccessEffect s (.write .reg .w32 off v) { s with arg := v, response := .written }
  | inLen (off : Nat) (v : Word) (idle : s.seq = .idle) :
      AccessEffect s (.write .reg .w32 off v) { s with inLen := v, response := .written }
  | input (width : Width) (off : Nat) (v : Word) (bytes : List Byte) (idle : s.seq = .idle)
      (inside : off + bytes.length ≤ s.params.capacity) :
      AccessEffect s (.write .input width off v)
        { s with input := s.input.writeBytes off bytes, response := .written }

theorem AccessEffect.ignored (s : State) (a : Access) : AccessEffect s a (respond .written s) :=
  .answered a .written s.draws

theorem bufferError_none {capacity : Nat} {width : Width} {off : Nat} (h : bufferError capacity width off = none) :
    (width = .w8 ∧ off < capacity) ∨ (width = .w32 ∧ off % 4 = 0 ∧ off + 4 ≤ capacity) := by
  cases width with
  | w8 => by_cases h1 : off < capacity <;> simp_all [bufferError]
  | w16 => simp [bufferError] at h
  | w32 =>
    by_cases h1 : off % 4 = 0 <;> by_cases h2 : off + 4 ≤ capacity <;> simp_all [bufferError]

theorem regError_none {width : Width} {off : Nat} (h : regError width off = none) :
    width = .w32 ∧ off % 4 = 0 ∧ off < 64 := by
  cases width with
  | w8 => simp [regError] at h
  | w16 => simp [regError] at h
  | w32 =>
    simp only [regError] at h
    split_ifs at h with h1 h2
    exact ⟨rfl, not_not.1 h1, h2⟩

theorem regAt_eq_ctrl {off : Nat} (ha : off % 4 = 0) (h : regAt off = .ctrl) : off = 0 := by
  have h4 : off / 4 = 0 := by
    unfold regAt at h
    split at h <;> first | assumption | cases h
  omega

theorem writeReg_effect (v : Word) (s : State) (off : Nat) (ha : off % 4 = 0) :
    AccessEffect s (.write .reg .w32 off v) (respond .written (writeReg v s (regAt off))) := by
  cases hr : regAt off with
  | ctrl => obtain rfl := regAt_eq_ctrl ha hr; exact .ctrl v
  | status => exact .status off v
  | cmd | arg | inLen =>
    simp only [writeReg, whenIdle]
    split_ifs with hb
    · exact .ignored _ _
    · have := (isBusy_eq_false s).1 (by simpa using hb)
      first | exact .cmd off v this | exact .arg off v this | exact .inLen off v this
  | _ => exact .ignored _ _

theorem writeInput_effect (width : Width) (off : Nat) (v : Word) (bytes : List Byte) (s : State)
    (h : off + bytes.length ≤ s.params.capacity) :
    AccessEffect s (.write .input width off v) (respond .written (writeInput off bytes s)) := by
  simp only [writeInput, whenIdle]
  split_ifs with hb
  · exact .ignored _ _
  · exact .input width off v bytes ((isBusy_eq_false s).1 (by simpa using hb)) h

/-- Everything a host access can do. -/
theorem hostAccess_effect {a : Access} {s t : State} (h : hostAccess a s = .ok t) : AccessEffect s a t := by
  cases a with
  | read space width off =>
    simp only [hostAccess] at h
    split at h <;> cases h
    cases space <;> cases width <;> exact .answered _ _ _
  | write space width off v =>
    simp only [hostAccess] at h
    split at h
    · cases h
    next hbe =>
    cases h
    cases space with
    | reg => obtain ⟨rfl, ha, _⟩ := regError_none hbe; exact writeReg_effect v s off ha
    | input =>
      rcases bufferError_none hbe with ⟨rfl, hlt⟩ | ⟨rfl, _, hle⟩
      · exact writeInput_effect .w8 off v _ s (by simpa using hlt)
      · exact writeInput_effect .w32 off v _ s (by simpa [wordBytes] using hle)
    | output => exact .ignored _ _

/-- Everything an access does in the machine, a bus error included. -/
theorem answerAccess_effect (a : Access) (s : State) : AccessEffect s a (answerAccess a s) := by
  unfold answerAccess
  split
  next t h => exact hostAccess_effect h
  next e h => exact .answered a (.error e) s.draws

/-- The four bytes of a joined word, in offset order. -/
theorem joinBytes_bytes (b0 b1 b2 b3 : Byte) : (joinBytes b0 b1 b2 b3).extractLsb' 0 8 = b0 ∧
    (joinBytes b0 b1 b2 b3).extractLsb' 8 8 = b1 ∧ (joinBytes b0 b1 b2 b3).extractLsb' 16 8 = b2 ∧
    (joinBytes b0 b1 b2 b3).extractLsb' 24 8 = b3 := by
  unfold joinBytes
  refine ⟨?_, ?_, ?_, ?_⟩ <;> ext j hj <;> simp only [BitVec.getElem_extractLsb', BitVec.getLsbD_append] <;>
    interval_cases j <;> simp

/-- An access of the register window is a bus error exactly in these cases. -/
theorem regError_isSome (width : Width) (off : Nat) :
    (regError width off).isSome = true ↔ width ≠ .w32 ∨ off % 4 ≠ 0 ∨ 64 ≤ off := by
  have hw : Config.regWindow = 64 := rfl
  cases width with
  | w8 => simp [regError]
  | w16 => simp [regError]
  | w32 =>
    simp only [regError, hw]
    split_ifs <;> simp <;> omega

/-- An access of a buffer is a bus error exactly in these cases. -/
theorem bufferError_isSome (capacity : Nat) (width : Width) (off : Nat) :
    (bufferError capacity width off).isSome = true ↔
      width = .w16 ∨ (width = .w8 ∧ capacity ≤ off) ∨ (width = .w32 ∧ (off % 4 ≠ 0 ∨ capacity < off + 4)) := by
  cases width with
  | w8 => simp only [bufferError]; split_ifs <;> simp <;> omega
  | w16 => simp [bufferError]
  | w32 => simp only [bufferError]; split_ifs <;> simp <;> omega

theorem inWindow_iff (p : Config.Params) (space : Space) (addr : Nat) :
    inWindow p space addr = true ↔ windowBase p space ≤ addr ∧ addr < windowBase p space + windowSize p space := by
  simp [inWindow]

/-- The write of CTRL, case by case. -/
theorem writeCtrl_cases (v : Word) (s : State) :
    (v.getLsbD 0 = true ∧ s.seq = .idle ∧ writeCtrl v s = startCommand { s with ie := v.getLsbD 1 }) ∨
    ((v.getLsbD 0 = false ∨ s.isBusy = true) ∧ writeCtrl v s = { s with ie := v.getLsbD 1 }) := by
  unfold writeCtrl
  cases hv : v.getLsbD 0 <;> cases hb : s.isBusy <;> simp [← isBusy_eq_false, hb]

/-- No access touches the parameters, the host's events or a result. -/
theorem AccessEffect.frame {s t : State} {a : Access} (h : AccessEffect s a t) :
    t.params = s.params ∧ t.pending = s.pending ∧ t.errcode = s.errcode ∧ t.result = s.result ∧
    t.dataOffset = s.dataOffset ∧ t.width = s.width ∧ t.height = s.height ∧ t.bitDepth = s.bitDepth ∧
    t.bpp = s.bpp ∧ t.outLen = s.outLen ∧ t.output = s.output := by
  cases h with
  | ctrl v => rcases writeCtrl_cases v s with ⟨_, _, h⟩ | ⟨_, h⟩ <;> simp [h]
  | _ => simp

/-- A running command keeps its snapshot and its operands through every access. -/
theorem AccessEffect.busy {s t : State} {a : Access} {sn : Snapshot} {n : Nat} (h : AccessEffect s a t)
    (hs : s.seq = .busy sn n) :
    t.seq = .busy sn n ∧ t.cmd = s.cmd ∧ t.arg = s.arg ∧ t.inLen = s.inLen ∧ t.input = s.input := by
  cases h with
  | ctrl v =>
    rcases writeCtrl_cases v s with ⟨_, hi, _⟩ | ⟨_, h⟩
    · rw [hs] at hi; cases hi
    · simp [h, hs]
  | cmd off v idle | arg off v idle | inLen off v idle | input _ _ _ _ idle _ => rw [hs] at idle; cases idle
  | _ => simp [hs]

end Sys2Proof.Machine
end

