-- ==== Sys2Proof/Laws/Decode.lean ====
section
/-! SUPPORT. What the decoder can answer, said once over the three fields of the command word. -/

namespace Sys2Proof

/-- The fields of an encoded command. -/
theorem opField_encode (i : Instr) : opField (encode i) = BitVec.ofNat 4 i.op := by
  unfold opField encode
  generalize BitVec.ofNat 4 i.op = x
  generalize BitVec.ofNat 4 i.param = y
  revert x y; decide

theorem paramField_encode (i : Instr) : paramField (encode i) = BitVec.ofNat 4 i.param := by
  unfold paramField encode
  generalize BitVec.ofNat 4 i.op = x
  generalize BitVec.ofNat 4 i.param = y
  revert x y; decide

theorem rsvField_encode (i : Instr) : rsvField (encode i) = 0 := by
  unfold rsvField encode
  generalize BitVec.ofNat 4 i.op = x
  generalize BitVec.ofNat 4 i.param = y
  revert x y; decide

/-- A word is its three fields. -/
theorem word_eq_fields (w : Word) : w = rsvField w ++ paramField w ++ opField w := by
  unfold rsvField paramField opField
  apply BitVec.eq_of_getLsbD_eq
  intro k hk
  simp only [BitVec.getLsbD_append, BitVec.getLsbD_extractLsb']
  by_cases h1 : k < 4
  · simp [h1]
  · by_cases h2 : k - 4 < 4
    · simp [h1, h2, show 4 + (k - 4) = k by omega]
    · simp [h1, h2, show 8 + (k - 4 - 4) = k by omega]
      intro h; omega

theorem legalCount_iff (n : Nat) : legalCount n = true ↔ 1 ≤ n ∧ n ≤ 4 := by
  simp [legalCount]

theorem legalRadius_iff (k : Nat) : legalRadius k = true ↔ k ≤ 2 := by
  unfold legalRadius Config.blurMaxRadius; exact decide_eq_true_iff

/-- What a legal word's fields are. -/
theorem decode_ok {w : Word} {i : Instr} (h : decode w = .ok i) :
    rsvField w = 0 ∧ (opField w).toNat = i.op ∧ (paramField w).toNat = i.param ∧ i.wellFormed = true := by
  unfold decode at h
  split_ifs at h with hr
  refine ⟨hr, ?_⟩
  unfold decodeOp at h
  split at h
  all_goals (first | (split_ifs at h) | (unfold decodePlain at h; split_ifs at h) | skip)
  all_goals cases h
  all_goals simp_all [Instr.op, Instr.param, Instr.wellFormed]

theorem decodeOp_self {i : Instr} (h : i.wellFormed = true) : decodeOp i.op i.param = .ok i := by
  cases i <;> simp_all [decodeOp, decodePlain, Instr.op, Instr.param, Instr.wellFormed]

end Sys2Proof
end

