-- ==== Sys2Proof/Laws/Operands.lean ====
section
/-! SUPPORT. What the operand forms compute: the little-endian value, the integer square root, the header checks. -/

namespace Sys2Proof.Machine

/-! ### Little-endian values -/

theorem le_lt (sn : Snapshot) (a n : Nat) : le sn a n < 256 ^ n := by
  induction n with
  | zero => simp [le]
  | succ n ih =>
    have hb : (sn.byte (a + n)).toNat ≤ 255 := by have := (sn.byte (a + n)).isLt; omega
    have : (sn.byte (a + n)).toNat * 256 ^ n ≤ 255 * 256 ^ n := Nat.mul_le_mul_right _ hb
    rw [le, pow_succ]; omega

theorem le_eq_sum (sn : Snapshot) (a n : Nat) :
    le sn a n = ∑ i ∈ Finset.range n, (sn.byte (a + i)).toNat * 256 ^ i := by
  induction n with
  | zero => simp [le]
  | succ n ih => rw [le, Finset.sum_range_succ, ih]

theorem le_congr {sn sn' : Snapshot} {a n : Nat} (h : ∀ i, i < n → sn.byte (a + i) = sn'.byte (a + i)) :
    le sn a n = le sn' a n := by
  induction n with
  | zero => rfl
  | succ n ih => rw [le, le, ih fun i hi => h i (by omega), h n (by omega)]

/-- A header field of four bytes fits its register. -/
theorem le_four_lt (sn : Snapshot) (a : Nat) : le sn a 4 < 2 ^ 32 := by simpa using le_lt sn a 4

theorem px_le (sn : Snapshot) (h : Header) (r c ch : Nat) : px sn h r c ch ≤ 255 := by
  have := (sn.byte (pixelOffset h r c ch)).isLt
  unfold px; omega

theorem ofNat_px (sn : Snapshot) (h : Header) (r c ch : Nat) :
    BitVec.ofNat 8 (px sn h r c ch) = sn.byte (pixelOffset h r c ch) := by
  simp [px]

/-! ### The integer square root -/

theorem isqrtBits_spec (N bits hi : Nat) (hlo : hi * hi ≤ N) (hhi : N < (hi + 2 ^ bits) * (hi + 2 ^ bits)) :
    isqrtBits N bits hi * isqrtBits N bits hi ≤ N ∧
      N < (isqrtBits N bits hi + 1) * (isqrtBits N bits hi + 1) := by
  induction bits generalizing hi with
  | zero => simpa [isqrtBits] using ⟨hlo, hhi⟩
  | succ bits ih =>
    rw [isqrtBits]
    split_ifs with h
    · refine ih _ h ?_
      rw [pow_succ] at hhi
      rwa [show hi + 2 ^ bits + 2 ^ bits = hi + 2 ^ bits * 2 by ring]
    · exact ih _ hlo (by omega)

/-- `isqrt N` is the one number whose square is at most `N` and whose successor's square is above it. -/
theorem isqrt_spec (N : Nat) : isqrt N * isqrt N ≤ N ∧ N < (isqrt N + 1) * (isqrt N + 1) := by
  refine isqrtBits_spec N _ 0 (by simp) ?_
  have h1 : N < 2 ^ (N.log2 + 1) := Nat.lt_log2_self
  have h2 : (2 : Nat) ^ (N.log2 + 1) ≤ 2 ^ (N.log2 / 2 + 1) * 2 ^ (N.log2 / 2 + 1) := by
    rw [← pow_add]
    exact Nat.pow_le_pow_right (by norm_num) (by omega)
  simpa using lt_of_lt_of_le h1 h2

theorem isqrt_eq_sqrt (N : Nat) : isqrt N = Nat.sqrt N := by
  obtain ⟨h1, h2⟩ := isqrt_spec N
  exact (Nat.eq_sqrt.2 ⟨h1, h2⟩)

theorem clamp255_le (x : Nat) : clamp255 x ≤ 255 := Nat.min_le_right x 255

/-! ### The header checks -/

theorem ValidImage.header_eq {capacity : Nat} {sn : Snapshot} {h : Header} (v : ValidImage capacity sn h) :
    readHeader sn = h := by
  obtain ⟨D, W, H, BD⟩ := h
  simp [readHeader, ← v.dataOffset, ← v.width, ← v.height, ← v.bitDepth]

/-- The checks pass, with header `h`, exactly on a valid image with that header. -/
theorem checkImage_ok_iff (capacity : Nat) (sn : Snapshot) (h : Header) :
    checkImage capacity sn = .ok h ↔ ValidImage capacity sn h := by
  constructor
  · intro hc
    unfold checkImage validate checkHeader at hc
    split_ifs at hc with h1 h2 h3 h4 h5 h6
    obtain rfl : readHeader sn = h := by simpa using hc
    simp only [not_or, not_lt, not_and_or, not_not] at h3 h4 h5
    exact ⟨by omega, by omega, rfl, rfl, rfl, rfl, h3, h4, by omega, not_lt.1 h6⟩
  · intro v
    have hh := v.header_eq
    have h1 := v.fits; have h2 := v.long; have h3 := v.offset; have h4 := v.depth; have h5 := v.grid
    have h6 := v.body
    unfold checkImage validate checkHeader
    rw [hh, if_neg (by omega), if_neg (by omega), if_neg (by omega), if_neg (by omega), if_neg (by omega),
      if_neg (by simp only [gridBytes, bytesPerPixel]; omega)]

theorem ValidImage.bytesPerPixel_eq {capacity : Nat} {sn : Snapshot} {h : Header} (v : ValidImage capacity sn h) :
    bytesPerPixel h = 3 ∨ bytesPerPixel h = 4 := by
  rcases v.depth with hd | hd <;> simp [bytesPerPixel, hd]

theorem ValidImage.unique {capacity : Nat} {sn : Snapshot} {h h' : Header} (v : ValidImage capacity sn h)
    (v' : ValidImage capacity sn h') : h = h' := v.header_eq.symm.trans v'.header_eq

/-- A snapshot of the same length whose first thirty bytes are the same is a valid image with the same header. -/
theorem ValidImage.congr {capacity : Nat} {sn sn' : Snapshot} {h : Header} (v : ValidImage capacity sn h)
    (hl : sn'.inLen = sn.inLen) (hb : ∀ a, a < 30 → sn'.byte a = sn.byte a) : ValidImage capacity sn' h where
  fits := hl ▸ v.fits
  long := hl ▸ v.long
  dataOffset := v.dataOffset.trans (le_congr fun i hi => (hb _ (by omega)).symm)
  width := v.width.trans (le_congr fun i hi => (hb _ (by omega)).symm)
  height := v.height.trans (le_congr fun i hi => (hb _ (by omega)).symm)
  bitDepth := v.bitDepth.trans (le_congr fun i hi => (hb _ (by omega)).symm)
  offset := hl ▸ v.offset
  depth := v.depth
  grid := v.grid
  body := hl ▸ v.body

/-- The code of a failed check is none of the other kinds. -/
theorem checkImage_error {capacity : Nat} {sn : Snapshot} {code : ErrorCode}
    (h : checkImage capacity sn = .error code) :
    code ≠ .none ∧ code ≠ .illegalCommand ∧ code ≠ .readRange := by
  unfold checkImage validate checkHeader at h
  split_ifs at h <;> cases h <;> simp

end Sys2Proof.Machine
end

