-- ==== Sys2Proof/Laws/Frame.lean ====
section
/-! SUPPORT. What an image command does, said once: it fails with a check's code or it writes the packed image and the
header registers; and what each byte of the packed image is. -/

namespace Sys2Proof.Machine

/-- Everything an image command can do. -/
theorem imageCommand_cases (f : Channel) (s : State) :
    (∃ code, checkImage s.params.capacity s.operands = .error code ∧
      imageCommand f s = .next (raiseError code s)) ∨
    (∃ h, ValidImage s.params.capacity s.operands h ∧
      imageCommand f s = .next (complete .none (commitHeader h (storeImage f s.operands h s)))) := by
  unfold imageCommand
  cases hc : checkImage s.params.capacity s.operands with
  | error code => exact .inl ⟨code, rfl, rfl⟩
  | ok h => exact .inr ⟨h, (checkImage_ok_iff _ _ _).1 hc, rfl⟩

/-- An image command on a valid image completes with the packed image. -/
theorem imageCommand_of_valid (f : Channel) (s : State) (h : Header)
    (v : ValidImage s.params.capacity s.operands h) :
    imageCommand f s = .next (complete .none (commitHeader h (storeImage f s.operands h s))) := by
  unfold imageCommand
  rw [(checkImage_ok_iff _ _ _).2 v]

theorem packedImage_length (f : Channel) (sn : Snapshot) (h : Header) :
    (packedImage f sn h).length = sn.inLen.toNat := by
  simp [packedImage]

/-- OUT below the length, after the packed image is stored. -/
theorem storeImage_read (f : Channel) (sn : Snapshot) (h : Header) (s : State) (a : Nat)
    (ha : a < sn.inLen.toNat) : (storeImage f sn h s).output.read a = some (packedByte f sn h a) := by
  have := Memory.read_writeBytes (packedImage f sn h) s.output 0 a (by simpa [packedImage_length] using ha)
  rw [Nat.zero_add] at this
  rw [storeImage_output, this]
  simp [packedImage, ha]

/-- OUT from the length on, after the packed image is stored. -/
theorem storeImage_read_above (f : Channel) (sn : Snapshot) (h : Header) (s : State) (a : Nat)
    (ha : sn.inLen.toNat ≤ a) : (storeImage f sn h s).output.read a = s.output.read a := by
  rw [storeImage_output, Memory.read_writeBytes_outside _ _ _ _ (by rw [packedImage_length]; omega)]

theorem packedByte_header (f : Channel) (sn : Snapshot) (h : Header) (a : Nat) (ha : a < h.dataOffset) :
    packedByte f sn h a = sn.byte a := by
  simp [packedByte, ha]

theorem packedByte_trailing (f : Channel) (sn : Snapshot) (h : Header) (a : Nat)
    (ha : h.dataOffset + gridBytes h ≤ a) : packedByte f sn h a = sn.byte a := by
  rw [packedByte, if_neg (by omega), if_neg (by omega)]

/-- The pixel's channels lie inside the grid. -/
theorem pixelOffset_lt {h : Header} {r c ch : Nat} (hr : r < h.height) (hc : c < h.width)
    (hch : ch < bytesPerPixel h) : pixelOffset h r c ch < h.dataOffset + gridBytes h := by
  unfold pixelOffset gridBytes
  have h1 : r * h.width + c + 1 ≤ h.width * h.height := by
    have : (r + 1) * h.width ≤ h.height * h.width := Nat.mul_le_mul_right _ hr
    rw [Nat.mul_comm h.width]; rw [Nat.add_mul] at this; omega
  have h2 : (r * h.width + c + 1) * bytesPerPixel h ≤ h.width * h.height * bytesPerPixel h :=
    Nat.mul_le_mul_right _ h1
  rw [Nat.add_mul] at h2; omega

theorem packedByte_pixel (f : Channel) (sn : Snapshot) (h : Header) {r c ch : Nat} (hr : r < h.height)
    (hc : c < h.width) (hch : ch < bytesPerPixel h) :
    packedByte f sn h (pixelOffset h r c ch) = BitVec.ofNat 8 (f sn h r c ch) := by
  have hlt := pixelOffset_lt hr hc hch
  have hi : pixelOffset h r c ch - h.dataOffset = (r * h.width + c) * bytesPerPixel h + ch := by
    unfold pixelOffset; omega
  have hp : 0 < bytesPerPixel h := by omega
  have hw : 0 < h.width := by omega
  have e1 : ((r * h.width + c) * bytesPerPixel h + ch) / bytesPerPixel h = r * h.width + c := by
    rw [Nat.mul_comm, Nat.mul_add_div hp, Nat.div_eq_of_lt hch, Nat.add_zero]
  have e2 : ((r * h.width + c) * bytesPerPixel h + ch) % bytesPerPixel h = ch := by
    rw [Nat.mul_comm, Nat.mul_add_mod, Nat.mod_eq_of_lt hch]
  have e3 : (r * h.width + c) / h.width = r := by
    rw [Nat.mul_comm, Nat.mul_add_div hw, Nat.div_eq_of_lt hc, Nat.add_zero]
  have e4 : (r * h.width + c) % h.width = c := by
    rw [Nat.mul_comm, Nat.mul_add_mod, Nat.mod_eq_of_lt hc]
  rw [packedByte, if_neg (by unfold pixelOffset; omega)]
  simp only [hi, e1, e2, e3, e4]
  rw [if_pos (by unfold pixelOffset at hlt; omega)]

/-- Every offset of the image is in the header, a pixel's channel, or a trailing byte. -/
theorem offset_cases (h : Header) (a : Nat) (hw : 0 < h.width) (hp : 0 < bytesPerPixel h) :
    a < h.dataOffset ∨
    (∃ r c ch, r < h.height ∧ c < h.width ∧ ch < bytesPerPixel h ∧ a = pixelOffset h r c ch) ∨
    h.dataOffset + gridBytes h ≤ a := by
  by_cases h1 : a < h.dataOffset
  · exact .inl h1
  by_cases h2 : h.dataOffset + gridBytes h ≤ a
  · exact .inr (.inr h2)
  refine .inr (.inl ⟨(a - h.dataOffset) / bytesPerPixel h / h.width, (a - h.dataOffset) / bytesPerPixel h % h.width,
    (a - h.dataOffset) % bytesPerPixel h, ?_, Nat.mod_lt _ hw, Nat.mod_lt _ hp, ?_⟩)
  · rw [Nat.div_div_eq_div_mul, Nat.div_lt_iff_lt_mul (Nat.mul_pos hp hw)]
    have : gridBytes h = h.height * (bytesPerPixel h * h.width) := by unfold gridBytes; ring
    omega
  · unfold pixelOffset
    rw [Nat.div_add_mod']
    have := Nat.div_add_mod' (a - h.dataOffset) (bytesPerPixel h)
    omega

end Sys2Proof.Machine
end

