-- ==== Sys2Proof/Laws/Exec.lean ====
section
/-! SUPPORT. What a command's completion can do, said once for all commands: it fails with a code, or it is READ_LE,
PARSE or an image command that succeeds. -/

namespace Sys2Proof.Machine

/-- The success of READ_LE. -/
def readLeState (n : Nat) (s : State) : State :=
  complete .none { s with result := BitVec.ofNat 32 (le s.operands s.operands.arg.toNat n) }

/-- The success of an image command with channel rule `f`. -/
def imageState (f : Channel) (h : Header) (s : State) : State :=
  complete .none (commitHeader h (storeImage f s.operands h s))

/-- An image command is the frame around one channel rule. -/
theorem exec_image {i : Instr} (hi : i ∈ imageCommands) : ∃ f : Channel, ∀ s, exec i s = imageCommand f s := by
  simp only [imageCommands, List.mem_cons, List.not_mem_nil, or_false] at hi
  rcases hi with rfl | rfl | rfl | rfl | rfl | rfl | rfl | rfl <;> exact ⟨_, fun _ => rfl⟩

/-- Everything READ_LE can do. -/
theorem execReadLe_cases (n : Nat) (s : State) :
    (legalCount n = false ∧ execReadLe n s = .next (raiseError .illegalCommand s)) ∨
    (legalCount n = true ∧ s.params.capacity < s.operands.inLen.toNat ∧
      execReadLe n s = .next (raiseError .lenRange s)) ∨
    (legalCount n = true ∧ s.operands.inLen.toNat ≤ s.params.capacity ∧
      s.operands.inLen.toNat < s.operands.arg.toNat + n ∧ execReadLe n s = .next (raiseError .readRange s)) ∨
    (legalCount n = true ∧ s.operands.inLen.toNat ≤ s.params.capacity ∧
      s.operands.arg.toNat + n ≤ s.operands.inLen.toNat ∧ execReadLe n s = .next (readLeState n s)) := by
  unfold execReadLe readLeState
  by_cases h1 : legalCount n = false
  · simp [h1]
  have h1' : legalCount n = true := by simpa using h1
  by_cases h2 : s.params.capacity < s.operands.inLen.toNat
  · simp [h1', h2]
  by_cases h3 : s.operands.inLen.toNat < s.operands.arg.toNat + n
  · simp [h1', h2, h3]; omega
  · simp [h1', h2, h3]; omega

/-- Everything PARSE can do. -/
theorem execParse_cases (s : State) :
    (∃ code, checkImage s.params.capacity s.operands = .error code ∧ execParse s = .next (raiseError code s)) ∨
    (∃ h, ValidImage s.params.capacity s.operands h ∧ execParse s = .next (complete .none (commitHeader h s))) := by
  unfold execParse
  cases hc : checkImage s.params.capacity s.operands with
  | error code => exact .inl ⟨code, rfl, rfl⟩
  | ok h => exact .inr ⟨h, (checkImage_ok_iff _ _ _).1 hc, rfl⟩

/-- Everything a command can do. -/
theorem exec_cases (i : Instr) (s : State) :
    (∃ code, code ≠ .none ∧ exec i s = .next (raiseError code s)) ∨
    (∃ n, i = .readLe n ∧ legalCount n = true ∧ s.operands.inLen.toNat ≤ s.params.capacity ∧
      s.operands.arg.toNat + n ≤ s.operands.inLen.toNat ∧ exec i s = .next (readLeState n s)) ∨
    (∃ h, i = .parse ∧ ValidImage s.params.capacity s.operands h ∧
      exec i s = .next (complete .none (commitHeader h s))) ∨
    (∃ h f, i ∈ imageCommands ∧ ValidImage s.params.capacity s.operands h ∧
      exec i s = .next (imageState f h s)) := by
  have image : ∀ j f, j ∈ imageCommands → exec j s = imageCommand f s →
      (∃ code, code ≠ .none ∧ exec j s = .next (raiseError code s)) ∨
      (∃ h f, j ∈ imageCommands ∧ ValidImage s.params.capacity s.operands h ∧
        exec j s = .next (imageState f h s)) := by
    intro j f hj he
    rw [he]
    rcases imageCommand_cases f s with ⟨code, hc, h⟩ | ⟨h, v, hh⟩
    · exact .inl ⟨code, (checkImage_error hc).1, h⟩
    · exact .inr ⟨h, f, hj, v, hh⟩
  cases i with
  | readLe n =>
    rcases execReadLe_cases n s with ⟨_, h⟩ | ⟨_, _, h⟩ | ⟨_, _, _, h⟩ | ⟨h1, h2, h3, h⟩
    · exact .inl ⟨_, by simp, h⟩
    · exact .inl ⟨_, by simp, h⟩
    · exact .inl ⟨_, by simp, h⟩
    · exact .inr (.inl ⟨n, rfl, h1, h2, h3, h⟩)
  | parse =>
    rcases execParse_cases s with ⟨code, hc, h⟩ | ⟨h, v, hh⟩
    · exact .inl ⟨code, (checkImage_error hc).1, h⟩
    · exact .inr (.inr (.inl ⟨h, rfl, v, hh⟩))
  | blur k =>
    by_cases hk : legalRadius k = true
    · have hk2 := (legalRadius_iff k).1 hk
      have hm : Instr.blur k ∈ imageCommands := by
        interval_cases k <;> simp [imageCommands]
      rcases image (.blur k) _ hm (by simp [exec, execBlur, hk]; rfl) with h | h
      · exact .inl h
      · exact .inr (.inr (.inr h))
    · exact .inl ⟨.illegalCommand, by simp, by simp [exec, execBlur, hk]⟩
  | greyscale => rcases image .greyscale _ (by simp [imageCommands]) rfl with h | h; exacts [.inl h, .inr (.inr (.inr h))]
  | sepia => rcases image .sepia _ (by simp [imageCommands]) rfl with h | h; exacts [.inl h, .inr (.inr (.inr h))]
  | invert => rcases image .invert _ (by simp [imageCommands]) rfl with h | h; exacts [.inl h, .inr (.inr (.inr h))]
  | reflect => rcases image .reflect _ (by simp [imageCommands]) rfl with h | h; exacts [.inl h, .inr (.inr (.inr h))]
  | edge => rcases image .edge _ (by simp [imageCommands]) rfl with h | h; exacts [.inl h, .inr (.inr (.inr h))]

/-- Every command completes. -/
theorem exec_next (i : Instr) (s : State) : ∃ t, exec i s = .next t := by
  rcases exec_cases i s with ⟨_, _, h⟩ | ⟨_, _, _, _, _, h⟩ | ⟨_, _, _, h⟩ | ⟨_, _, _, _, h⟩ <;> exact ⟨_, h⟩

end Sys2Proof.Machine
end

