-- ==== Sys2Proof/Laws/PerInstr.lean ====
section
/-! SUPPORT. Per-command laws about the encoding: the three fields of a well-formed command's word. -/

namespace Sys2Proof.Laws.EncodedFields

/-- The word of a well-formed command holds its operation code, its PARAM operand and zeros (30_encoding.md R70). -/
def Statement (i : Instr) : Prop :=
  i.wellFormed = true →
    (opField (encode i)).toNat = i.op ∧ (paramField (encode i)).toNat = i.param ∧ rsvField (encode i) = 0

theorem readLe (n : Nat) : Statement (.readLe n) := by
  intro h
  obtain ⟨h1, h4⟩ := (legalCount_iff n).1 h
  rw [opField_encode, paramField_encode, rsvField_encode]
  interval_cases n <;> decide

theorem parse : Statement .parse := by
  intro _; decide

theorem greyscale : Statement .greyscale := by
  intro _; decide

theorem sepia : Statement .sepia := by
  intro _; decide

theorem invert : Statement .invert := by
  intro _; decide

theorem reflect : Statement .reflect := by
  intro _; decide

theorem blur (k : Nat) : Statement (.blur k) := by
  intro h
  have hk := (legalRadius_iff k).1 h
  rw [opField_encode, paramField_encode, rsvField_encode]
  interval_cases k <;> decide

theorem edge : Statement .edge := by
  intro _; decide

end Sys2Proof.Laws.EncodedFields
end

