-- ==== Sys2Proof/Laws/Step.lean ====
section
/-! SUPPORT. What one step can do, said once: reset, the completion of the running command, time passing, or the
host's next event. -/

namespace Sys2Proof.Machine

/-! ### Completion -/

/-- Everything the completion of a command word can do: a code, or the success of the command it stands for. -/
theorem completionStep_cases (w : Word) (s : State) :
    (∃ e, decode w = .error e ∧ completionStep w s = .next (raiseError .illegalCommand s)) ∨
    (∃ i, decode w = .ok i ∧ completionStep w s = exec i s) := by
  unfold completionStep
  cases h : decode w with
  | error e => exact .inl ⟨e, rfl, rfl⟩
  | ok i => exact .inr ⟨i, rfl, rfl⟩

theorem completionStep_next (w : Word) (s : State) : ∃ t, completionStep w s = .next t := by
  rcases completionStep_cases w s with ⟨_, _, h⟩ | ⟨i, _, h⟩
  · exact ⟨_, h⟩
  · rw [h]; exact exec_next i s

/-- What every completion leaves, and what it leaves alone. -/
structure Completed (s t : State) : Prop where
  seq : t.seq = .idle
  done : t.done = true
  err : t.err = decide (t.errcode ≠ .none)
  params : t.params = s.params
  ie : t.ie = s.ie
  cmd : t.cmd = s.cmd
  arg : t.arg = s.arg
  inLen : t.inLen = s.inLen
  input : t.input = s.input
  response : t.response = s.response
  pending : t.pending = s.pending
  draws : t.draws = s.draws

theorem raiseError_completed (code : ErrorCode) (s : State) : Completed s (raiseError code s) := by
  constructor <;> rfl

theorem exec_completed {i : Instr} {s t : State} (h : exec i s = .next t) : Completed s t := by
  rcases exec_cases i s with ⟨c, _, h'⟩ | ⟨n, _, _, _, _, h'⟩ | ⟨hd, _, _, h'⟩ | ⟨hd, f, _, _, h'⟩
  all_goals rw [h'] at h; cases h
  · exact raiseError_completed c s
  all_goals constructor <;> rfl

theorem completionStep_completed {w : Word} {s t : State} (h : completionStep w s = .next t) : Completed s t := by
  rcases completionStep_cases w s with ⟨_, _, h'⟩ | ⟨i, _, h'⟩
  · rw [h'] at h; cases h; exact raiseError_completed _ s
  · rw [h'] at h; exact exec_completed h

/-! ### The host's turn -/

/-- What the host's event can do to the state, beside the list of pending events. -/
inductive HostEffect (s : State) (e : HostEvent) : State → Prop where
  | access (a : Access) (t : State) (pending : List HostEvent) (h : AccessEffect s a t)
      (he : e = .access a ∨ (∃ width addr v space off, e = .bus width addr (some v) ∧
        locate s.params addr = some (space, off) ∧ a = .write space width off v) ∨
        (∃ space width off, a = .read space width off)) :
      HostEffect s e { t with pending := pending }
  | reset (pending : List HostEvent) (he : e = .reset) : HostEffect s e { takeReset s with pending := pending }

theorem writeReg_pending (v : Word) (s : State) (r : Reg) (p : List HostEvent) :
    writeReg v { s with pending := p } r = { writeReg v s r with pending := p } := by
  have hb : State.isBusy { s with pending := p } = s.isBusy := rfl
  cases r with
  | ctrl =>
    simp only [writeReg, writeCtrl, hb]
    split_ifs <;> rfl
  | cmd | arg | inLen =>
    simp only [writeReg, whenIdle, hb]
    split_ifs <;> rfl
  | _ => rfl

theorem writeInput_pending (a : Nat) (bytes : List Byte) (s : State) (p : List HostEvent) :
    writeInput a bytes { s with pending := p } = { writeInput a bytes s with pending := p } := by
  have hb : State.isBusy { s with pending := p } = s.isBusy := rfl
  simp only [writeInput, whenIdle, hb]
  split_ifs <;> rfl

/-- The pending list takes no part in an access. -/
theorem answerAccess_pending (a : Access) (s : State) (p : List HostEvent) :
    answerAccess a { s with pending := p } = { answerAccess a s with pending := p } := by
  unfold answerAccess hostAccess
  cases a with
  | read space width off =>
    cases hb : busError s.params.capacity space width off with
    | some e => simp [respond, hb]
    | none =>
      have hr : ∀ r, readReg { s with pending := p } r = readReg s r := fun r => by cases r <;> rfl
      cases space <;> cases width <;> simp [performRead, respond, respondDrawn, hr, hb] <;> rfl
  | write space width off v =>
    cases hb : busError s.params.capacity space width off with
    | some e => simp [respond, hb]
    | none =>
      cases space <;> cases width <;>
        simp [performWrite, respond, writeReg_pending, writeInput_pending, hb]

/-- An access by bus address is the access of the window it names, or a bus error. -/
theorem busAccess_cases (width : Width) (addr : Nat) (value : Option Word) (s : State) :
    (∃ space off v, locate s.params addr = some (space, off) ∧ value = some v ∧
      busAccess width addr value s = answerAccess (.write space width off v) s) ∨
    (∃ space off, locate s.params addr = some (space, off) ∧ value = none ∧
      busAccess width addr value s = answerAccess (.read space width off) s) ∨
    (locate s.params addr = none ∧ busAccess width addr value s = respond (.error .noWindow) s) := by
  unfold busAccess
  rcases hl : locate s.params addr with _ | ⟨space, off⟩ <;> cases value <;> simp

/-- Everything the host's event can do. -/
theorem hostEvent_effect (e : HostEvent) (rest : List HostEvent) (s : State) :
    HostEffect s e (hostEvent e rest s) := by
  cases e with
  | access a =>
    rw [hostEvent, answerAccess_pending]
    exact .access a _ rest (answerAccess_effect a s) (.inl rfl)
  | bus width addr value =>
    rcases busAccess_cases width addr value { s with pending := rest } with
      ⟨space, off, v, hl, rfl, h⟩ | ⟨space, off, hl, rfl, h⟩ | ⟨hl, h⟩
    · rw [hostEvent, h, answerAccess_pending]
      exact .access _ _ rest (answerAccess_effect _ s) (.inr (.inl ⟨width, addr, v, space, off, rfl, hl, rfl⟩))
    · rw [hostEvent, h, answerAccess_pending]
      exact .access _ _ rest (answerAccess_effect _ s) (.inr (.inr ⟨space, width, off, rfl⟩))
    · rw [hostEvent, h]
      exact .access (.read .reg .w32 0) (respond (.error .noWindow) s) rest
        (.answered _ (.error .noWindow) s.draws) (.inr (.inr ⟨_, _, _, rfl⟩))
  | poll =>
    rw [hostEvent, answerAccess_pending]
    exact .access _ _ _ (answerAccess_effect _ s) (.inr (.inr ⟨_, _, _, rfl⟩))
  | waitIrq =>
    exact .access (.read .reg .w32 0) s _ (.answered _ s.response s.draws) (.inr (.inr ⟨_, _, _, rfl⟩))
  | reset => exact .reset rest rfl

/-- The events still pending after an event that is no reset: the rest, or all of them. -/
theorem hostEvent_pending (e : HostEvent) (rest : List HostEvent) (s : State) (he : e.noReset = true) :
    (hostEvent e rest s).pending = rest ∨ (hostEvent e rest s).pending = e :: rest := by
  cases e with
  | access a => rw [hostEvent, answerAccess_pending]; exact .inl rfl
  | bus width addr value =>
    rcases busAccess_cases width addr value { s with pending := rest } with
      ⟨_, _, _, _, _, h⟩ | ⟨_, _, _, _, h⟩ | ⟨_, h⟩ <;> rw [hostEvent, h]
    · rw [answerAccess_pending]; exact .inl rfl
    · rw [answerAccess_pending]; exact .inl rfl
    · exact .inl rfl
  | poll =>
    rw [hostEvent, answerAccess_pending]
    by_cases hb : s.isBusy = true <;> simp [hb]
  | waitIrq => unfold hostEvent; by_cases hb : irq s = true <;> simp [hb]
  | reset => simp [HostEvent.noReset] at he

/-! ### The step -/

/-- Everything a step can do. -/
theorem step_cases (s : State) :
    (∃ rest, s.pending = .reset :: rest ∧ step s = .next (takeReset { s with pending := rest })) ∨
    (s.noResetNext = true ∧
      ((∃ sn, s.seq = .busy sn 0 ∧ step s = completionStep sn.cmd s) ∨
       ((∀ sn, s.seq ≠ .busy sn 0) ∧
        ((s.pending = [] ∧ step s = .next (tick s)) ∨
         (∃ e rest, s.pending = e :: rest ∧ e.noReset = true ∧ step s = .next (hostEvent e rest (tick s))))))) := by
  unfold step advance State.noResetNext
  rcases hp : s.pending with _ | ⟨e, rest⟩
  · rcases hs : s.seq with _ | ⟨sn, _ | n⟩ <;> simp
  · cases e <;> (rcases hs : s.seq with _ | ⟨sn, _ | n⟩) <;> simp [HostEvent.noReset]

/-- Every step answers a next state. -/
theorem step_next (s : State) : ∃ t, step s = .next t := by
  rcases step_cases s with ⟨_, _, h⟩ | ⟨_, ⟨sn, _, h⟩ | ⟨_, ⟨_, h⟩ | ⟨_, _, _, _, h⟩⟩⟩
  · exact ⟨_, h⟩
  · rw [h]; exact completionStep_next _ s
  · exact ⟨_, h⟩
  · exact ⟨_, h⟩

end Sys2Proof.Machine
end

