-- ==== Sys2Proof/Machine/HostProgram.lean ====
section
/-! DEFINITION. The spec's notation for host programs (30_encoding.md R78, R79), as lists of pending events. -/

namespace Sys2Proof.Machine

/-- `WR32 REG:<name>, v`. -/
def wr32Reg (r : Reg) (v : Word) : HostEvent := .access (.write .reg .w32 (regOffset r) v)

/-- `RD32 REG:<name>`. -/
def rd32Reg (r : Reg) : HostEvent := .access (.read .reg .w32 (regOffset r))

/-- `WR8 IN:<off>, v`. -/
def wr8In (off : Nat) (v : Byte) : HostEvent := .access (.write .input .w8 off (v.setWidth 32))

/-- `WR32 IN:<off>, v`. -/
def wr32In (off : Nat) (v : Word) : HostEvent := .access (.write .input .w32 off v)

/-- `RD8 IN:<off>`. -/
def rd8In (off : Nat) : HostEvent := .access (.read .input .w8 off)

/-- `RD32 IN:<off>`. -/
def rd32In (off : Nat) : HostEvent := .access (.read .input .w32 off)

/-- `RD8 OUT:<off>`. -/
def rd8Out (off : Nat) : HostEvent := .access (.read .output .w8 off)

/-- `RD32 OUT:<off>`. -/
def rd32Out (off : Nat) : HostEvent := .access (.read .output .w32 off)

/-- `WR8 IN:i, b` for each byte of a list, from offset `off` on. -/
def storeIn : (off : Nat) → List Byte → List HostEvent
  | _, [] => []
  | off, b :: bs => wr8In off b :: storeIn (off + 1) bs

/-- `LOAD IN, [b0, ...]`. -/
def loadIn (bytes : List Byte) : List HostEvent :=
  storeIn 0 bytes ++ [wr32Reg .inLen (BitVec.ofNat 32 bytes.length)]

/-- `RUN <command>`. -/
def runWord (w : Word) : List HostEvent := [wr32Reg .cmd w, wr32Reg .ctrl 0x00000001, .poll]

/-- `RUN <command>`. -/
def run (i : Instr) : List HostEvent := runWord (encode i)

/-- `RUNI <command>`. -/
def runInterrupt (i : Instr) : List HostEvent := [wr32Reg .cmd (encode i), wr32Reg .ctrl 0x00000003, .poll]

/-- `READ_LE n, off`. -/
def readLeAt (n : Nat) (off : Word) : List HostEvent := wr32Reg .arg off :: run (.readLe n)

/-- `CLEAR`. -/
def clearFlags : List HostEvent := [wr32Reg .status 0x00000006]

end Sys2Proof.Machine
end

