-- ==== Sys2Proof/Tests/Slice0.lean ====
section
/-! SUPPORT. The model's own tests: the well-formedness smoke tests, the decoding of words written out from the spec,
vectors of 95_test_vectors.md, and for every statement with hypotheses a state that meets them. -/

namespace Sys2Proof.Tests

open Sys2Proof.Machine

/-! ### Small states -/

/-- A block of 80 bytes of IN, idle, nothing in it. -/
def blank : State :=
  State.resetWith { capacity := 80, regBase := 0x1000, inBase := 0x2000, outBase := 0x3000 } [] 0

/-- The block with bytes in IN from offset 0 on, and their number in IN_LEN. -/
def holding (bytes : List Byte) : State :=
  { blank with input := Memory.writeBytes [] 0 bytes, inLen := BitVec.ofNat 32 bytes.length }

/-- A header of 30 bytes: `D = 30`, and the named width, height and depth. -/
def header (w h bd : Byte) : List Byte :=
  List.replicate 10 0 ++ [30, 0, 0, 0, 0, 0, 0, 0] ++ [w, 0, 0, 0] ++ [h, 0, 0, 0, 0, 0] ++ [bd, 0]

/-- The block with an image in IN. -/
def image (w h bd : Byte) (body : List Byte) : State := holding (header w h bd ++ body)

/-- The block that has just started a command, with the steps it waits. -/
def started (i : Instr) (wait : Nat) (s : State) : State := startWith wait { s with cmd := encode i }

/-- The next state of an outcome, if it has one. -/
def nextOf : Host.Outcome State Fault Refusal → Option State
  | .next t => some t
  | .fault _ => none
  | .refused _ => none

/-- What is read off the state a command completes in. -/
def after {α : Type} (i : Instr) (s : State) (f : State → α) : Option α := (nextOf (exec i s)).map f

/-- `n` bytes of OUT from offset 30 on. -/
def body (n : Nat) (t : State) : List (Option Byte) := (List.range n).map fun a => t.output.read (30 + a)

/-- The pixels of image A of 95_test_vectors.md, 2 by 2, 24-bit. -/
def imageA : State := image 2 2 24 [0x0a, 0x14, 0x1e, 0xff, 0x00, 0x80, 0x00, 0x00, 0x00, 0xc8, 0x64, 0x32]

/-- Row 0 of image B of 95_test_vectors.md, 1 by 3, 32-bit. -/
def rowB : State := image 3 1 32 [0x0a, 0x14, 0x1e, 0xff, 0x28, 0x32, 0x3c, 0x80, 0x46, 0x50, 0x5a, 0x00]

/-- One pixel, 24-bit. -/
def onePixel : State := image 1 1 24 [0x0a, 0x14, 0x1e]

/-! ### Well-formedness smoke -/

theorem test_wellFormed_refuses_count_0 : (Instr.readLe 0).wellFormed = false := by decide
theorem test_wellFormed_refuses_count_5 : (Instr.readLe 5).wellFormed = false := by decide
theorem test_wellFormed_admits_count_4 : (Instr.readLe 4).wellFormed = true := by decide
theorem test_wellFormed_refuses_radius_3 : (Instr.blur 3).wellFormed = false := by decide
theorem test_wellFormed_admits_radius_2 : (Instr.blur 2).wellFormed = true := by decide

/-! ### Decoding, the words laid out as RSV, PARAM, OP (30_encoding.md R70, R73, R74) -/

theorem test_decode_readLe : decode (0x000000#24 ++ 0b0011#4 ++ 0b0001#4) = .ok (.readLe 3) := by decide
theorem test_decode_parse : decode (0x000000#24 ++ 0b0000#4 ++ 0b0010#4) = .ok .parse := by decide
theorem test_decode_greyscale : decode (0x000000#24 ++ 0b0000#4 ++ 0b0011#4) = .ok .greyscale := by decide
theorem test_decode_sepia : decode (0x000000#24 ++ 0b0000#4 ++ 0b0100#4) = .ok .sepia := by decide
theorem test_decode_invert : decode (0x000000#24 ++ 0b0000#4 ++ 0b0101#4) = .ok .invert := by decide
theorem test_decode_reflect : decode (0x000000#24 ++ 0b0000#4 ++ 0b0110#4) = .ok .reflect := by decide
theorem test_decode_blur : decode (0x000000#24 ++ 0b0001#4 ++ 0b0111#4) = .ok (.blur 1) := by decide
theorem test_decode_edge : decode (0x000000#24 ++ 0b0000#4 ++ 0b1000#4) = .ok .edge := by decide
theorem test_decode_reserved_op : decode (0x000000#24 ++ 0b0000#4 ++ 0b1001#4) = .error .reservedOp := by decide
theorem test_decode_reserved_bits : decode (0x800000#24 ++ 0b0000#4 ++ 0b0101#4) = .error .reservedBits := by decide
theorem test_decode_bad_count : decode (0x000000#24 ++ 0b0101#4 ++ 0b0001#4) = .error .badCount := by decide
theorem test_decode_bad_radius : decode (0x000000#24 ++ 0b0011#4 ++ 0b0111#4) = .error .badRadius := by decide
theorem test_decode_bad_param : decode (0x000000#24 ++ 0b0001#4 ++ 0b0011#4) = .error .badParam := by decide

/-! ### Vectors of 95_test_vectors.md -/

/-- L1.1: bytes that are not sorted. -/
theorem test_readLe_unsorted :
    after (.readLe 4) (holding [0x34, 0x12, 0x78, 0x56]) State.result = some 0x56781234 := by decide +kernel

/-- L2.1: the sum of ARG and the count does not wrap. -/
theorem test_readLe_no_wrap :
    after (.readLe 4) { imageA with arg := 0xFFFFFFFF } State.errcode = some .readRange := by decide +kernel

/-- L2.3: the header values. -/
theorem test_parse_header : after .parse imageA (fun t => (t.dataOffset, t.width, t.height, t.bitDepth, t.bpp))
    = some (30, 2, 2, 24, 3) := by decide +kernel

/-- L2.3: the depth is checked before the grid. -/
theorem test_parse_depth_first : after .parse (image 0 2 16 []) State.errcode = some .badBitDepth := by
  decide +kernel

/-- L2.4, GREYSCALE. -/
theorem test_greyscale_imageA : after .greyscale imageA (body 12) = some ([0x14, 0x14, 0x14, 0x80, 0x80, 0x80,
    0x00, 0x00, 0x00, 0x75, 0x75, 0x75].map some) := by decide +kernel

/-- L2.4, SEPIA. -/
theorem test_sepia_imageA : after .sepia imageA (body 12) = some ([0x14, 0x1a, 0x1d, 0x44, 0x58, 0x62,
    0x00, 0x00, 0x00, 0x5d, 0x78, 0x86].map some) := by decide +kernel

/-- L2.6: a tie rounds up. -/
theorem test_sepia_tie : sepiaValue 81 57 6 2 = 62 := by decide

/-- L2.4, INVERT. -/
theorem test_invert_imageA : after .invert imageA (body 12) = some ([0xf5, 0xeb, 0xe1, 0x00, 0xff, 0x7f,
    0xff, 0xff, 0xff, 0x37, 0x9b, 0xcd].map some) := by decide +kernel

/-- L2.5, INVERT leaves alpha. -/
theorem test_invert_rowB : after .invert rowB (body 12) = some ([245, 235, 225, 255, 215, 205, 195, 128,
    185, 175, 165, 0].map some) := by decide +kernel

/-- L2.5, REFLECT moves alpha. -/
theorem test_reflect_rowB : after .reflect rowB (body 12) = some ([70, 80, 90, 0, 40, 50, 60, 128,
    10, 20, 30, 255].map some) := by decide +kernel

/-- L2.4, BLUR 1. -/
theorem test_blur_imageA : after (.blur 1) imageA (body 12) = some ([0x74, 0x1e, 0x34, 0x74, 0x1e, 0x34,
    0x74, 0x1e, 0x34, 0x74, 0x1e, 0x34].map some) := by decide +kernel

/-- L2.9: the clipped window's counts in a 2 by 7 image, radius 2. -/
theorem test_blur_counts : (List.range 7).map (windowCount ⟨30, 7, 2, 24⟩ 2 0) = [6, 8, 10, 10, 10, 8, 6] := by decide

/-- L2.4, EDGE. -/
theorem test_edge_imageA : after .edge imageA (body 12) = some ([0xff, 0x8d, 0xff, 0xff, 0xcb, 0x74,
    0xff, 0xcb, 0xff, 0xff, 0x1c, 0xff].map some) := by decide +kernel

/-- L2.10, EDGE on three rows of one pixel: rows and columns swap roles. -/
theorem test_edge_column : after .edge (image 1 3 24 [100, 100, 100, 100, 100, 100, 100, 100, 100]) (body 9)
    = some ([200, 200, 200, 0, 0, 0, 200, 200, 200].map some) := by decide +kernel

/-- A placed word runs as the first thing after reset (L3, program 4: the word 0 is illegal). -/
theorem test_first_step : (nextOf (step (State.reset.withFetchWord 32 0))).map State.errcode
    = some .illegalCommand := by decide +kernel

/-! ### Witnesses: for each statement with hypotheses, what meets them -/

theorem valid_imageA : ValidImage imageA.params.capacity imageA.operands ⟨30, 2, 2, 24⟩ :=
  (checkImage_ok_iff _ _ _).1 (by decide +kernel)

theorem valid_rowB : ValidImage rowB.params.capacity rowB.operands ⟨30, 3, 1, 32⟩ :=
  (checkImage_ok_iff _ _ _).1 (by decide +kernel)

theorem valid_onePixel : ValidImage onePixel.params.capacity onePixel.operands ⟨30, 1, 1, 24⟩ :=
  (checkImage_ok_iff _ _ _).1 (by decide +kernel)

theorem witness_DecodeOfEncodeIsTheCommand : (Instr.readLe 4).wellFormed = true ∧ (Instr.blur 2).wellFormed = true := by
  decide

theorem witness_DecodedWordIsItsEncoding : decode 0x00000041 = .ok (.readLe 4) := by decide

theorem witness_IllegalWordsAreTheFiveKinds : illegalWord 0x00000009 ∧ illegalWord 0x00000102 ∧
    illegalWord 0x00000051 ∧ illegalWord 0x00000037 ∧ illegalWord 0x00000018 ∧ ¬illegalWord 0x00000008 := by
  refine ⟨?_, ?_, ?_, ?_, ?_, ?_⟩ <;> simp only [illegalWord] <;> decide

theorem witness_StepRunsTheDecodedCommand : ∃ sn, (started .parse 0 imageA).seq = .busy sn 0 ∧
    (started .parse 0 imageA).noResetNext = true ∧ decode sn.cmd = .ok .parse := ⟨_, rfl, rfl, by decide⟩

theorem witness_PlacedWordRunsNext : decodeTableWord 32 0x00000027 = some (.blur 2) := by decide

/-- The state the statement speaks of, IDLE and BUSY, with each kind of event pending. -/
theorem witness_StepTakesTheHostsTurn :
    (blank.seq = .idle ∧ blank.pending = []) ∧
    (∃ sn, (started .edge 3 blank).seq = .busy sn (2 + 1)) ∧
    ∀ e ∈ [HostEvent.access (.read .reg .w32 0), .bus .w32 0x1000 none, .poll, .waitIrq],
      ({ blank with pending := [e] } : State).seq = .idle ∧ ({ blank with pending := [e] } : State).pending = e :: [] :=
  ⟨⟨rfl, rfl⟩, ⟨_, rfl⟩, fun _ _ => ⟨rfl, rfl⟩⟩

theorem witness_EveryStartedCommandCompletes : ∃ sn,
    ({ started .edge 3 blank with pending := [.poll, .waitIrq] } : State).seq = .busy sn 3 ∧
    ({ started .edge 3 blank with pending := [.poll, .waitIrq] } : State).noResetPending = true := ⟨_, rfl, rfl⟩

/-- A step that starts a command. -/
theorem witness_PhaseTransitions_start : ∃ t,
    step { blank with pending := [.access (.write .reg .w32 0 1)] } = .next t ∧ t.isBusy = true := ⟨_, rfl, rfl⟩

/-- A step that starts a command by bus address. -/
theorem witness_PhaseTransitions_bus : ∃ t,
    step { blank with pending := [.bus .w32 0x1000 (some 3)] } = .next t ∧ t.isBusy = true := ⟨_, rfl, rfl⟩

/-- A step that completes a command. -/
theorem witness_PhaseTransitions_complete : ∃ t,
    (started .edge 0 blank).isBusy = true ∧ step (started .edge 0 blank) = .next t ∧ t.isBusy = false := by
  obtain ⟨t, ht⟩ := step_next (started .edge 0 blank)
  have h : step (started .edge 0 blank) = completionStep (encode .edge) (started .edge 0 blank) := rfl
  exact ⟨t, rfl, ht, (isBusy_eq_false t).2 (completionStep_completed (h.symm.trans ht)).seq⟩

theorem witness_ResultsChangeOnlyAtCompletionOrReset : ∃ t, step (started .edge 1 blank) = .next t ∧
    (started .edge 1 blank).noResetNext = true ∧ ∀ sn, (started .edge 1 blank).seq ≠ .busy sn 0 :=
  ⟨_, rfl, rfl, fun sn h => by cases h⟩

theorem inv_blank : blank.Inv :=
  ⟨by decide, .empty _, .empty _, fun _ _ h => (by cases h), fun h => (by cases h), .inl ⟨rfl, rfl⟩, by decide,
    fun _ h => absurd h (Nat.not_lt_zero _)⟩

/-- Idle, with a start pending; the state after it; and one that completes next. -/
theorem witness_StepKeepsTheInvariant :
    ({ blank with pending := [.access (.write .reg .w32 0 1)] } : State).Inv ∧ (started .edge 0 blank).Inv :=
  ⟨⟨inv_blank.params, inv_blank.input, inv_blank.output, inv_blank.busy, inv_blank.err, inv_blank.depth,
      inv_blank.outLen, inv_blank.defined⟩,
    ⟨inv_blank.params, inv_blank.input, inv_blank.output,
      fun _ _ h => (by cases h; exact ⟨⟨rfl, rfl, rfl, rfl⟩, rfl, rfl⟩), fun h => (by cases h), inv_blank.depth,
      inv_blank.outLen, inv_blank.defined⟩⟩

theorem witness_ErrorChangesOnlyStatusAndCode :
    (∃ t, completionStep 0 blank = .next t ∧ t.errcode ≠ .none) ∧
    ∃ t, exec (.blur 3) blank = .next t ∧ t.errcode ≠ .none := ⟨⟨_, rfl, by decide⟩, ⟨_, rfl, by decide⟩⟩

/-- READ_LE's row of the priority, and the others': one word of each. -/
theorem witness_FirstFailedCheckIsReported :
    ((0x00000041 : Word).extractLsb' 0 4).toNat = 1 ∧ ((0x00000027 : Word).extractLsb' 0 4).toNat ≠ 1 := by decide

theorem witness_IllegalCommandIsFoundAtCompletion :
    (∃ sn, (startWith 0 { blank with cmd := 0x00000051 }).seq = .busy sn 0 ∧
      (startWith 0 { blank with cmd := 0x00000051 }).noResetNext = true ∧ illegalWord sn.cmd) ∧
    blank.seq = .idle ∧ (1 : Word).getLsbD 0 = true :=
  ⟨⟨_, rfl, rfl, by simp only [illegalWord]; decide⟩, rfl, rfl⟩

/-- The one-pixel block with other bytes above the length, in OUT and in RESULT. -/
def changed : State := { onePixel with input := onePixel.input.write 70 1, output := [(1, 2)], result := 7 }

/-- Two states that differ in IN above the length, in OUT and in a result, on which an image command succeeds. -/
theorem witness_OutcomeDependsOnTheSnapshotAlone : ∃ s₂ t₁ t₂ : State, s₂.input ≠ onePixel.input ∧
    onePixel.params.capacity = s₂.params.capacity ∧ onePixel.operands.arg = s₂.operands.arg ∧
    onePixel.operands.inLen = s₂.operands.inLen ∧
    (∀ a, a < onePixel.operands.inLen.toNat → onePixel.operands.byte a = s₂.operands.byte a) ∧
    exec .invert onePixel = .next t₁ ∧ exec .invert s₂ = .next t₂ ∧ t₁.errcode = .none ∧ .invert ∈ imageCommands := by
  have hv := valid_onePixel
  obtain ⟨t₂, h₂⟩ := exec_next .invert changed
  exact ⟨changed, _, t₂, by decide +kernel, rfl, rfl, rfl, by decide +kernel,
    imageCommand_of_valid (keepAlpha invertChannel) onePixel _ hv, h₂, rfl, by decide⟩

/-- READ_LE: a count that is none; a length above the capacity; the first offset out of range; the last in range. -/
theorem witness_ReadLeExtractsTheInteger :
    (¬(1 ≤ 5 ∧ 5 ≤ 4)) ∧
    blank.params.capacity < ({ blank with inLen := 81 } : State).operands.inLen.toNat ∧
    (onePixel.operands.inLen.toNat ≤ onePixel.params.capacity ∧
      ({ onePixel with arg := 30 } : State).operands.inLen.toNat
        < ({ onePixel with arg := 30 } : State).operands.arg.toNat + 4) ∧
    ({ onePixel with arg := 29 } : State).operands.arg.toNat + 4
      ≤ ({ onePixel with arg := 29 } : State).operands.inLen.toNat := by decide +kernel

/-- A code of none, and a read out of range, both with the length within the capacity. -/
theorem witness_ReadLeAdmitsExactlyTheOffsetsInRange :
    onePixel.operands.inLen.toNat ≤ onePixel.params.capacity ∧
    after (.readLe 4) { onePixel with arg := 29 } State.errcode = some .none ∧
    after (.readLe 4) { onePixel with arg := 30 } State.errcode = some .readRange := by decide +kernel

theorem witness_LittleEndianValueIsTheBytes : 1 ≤ 4 ∧ 4 ≤ 4 := by decide

theorem witness_ParseWritesTheHeaderRegisters : ∃ h, ValidImage imageA.params.capacity imageA.operands h :=
  ⟨_, valid_imageA⟩

theorem witness_ParseAgreesWithEveryImageCommand : Instr.blur 2 ∈ imageCommands ∧ Instr.edge ∈ imageCommands := by
  decide

theorem witness_ImageCommandsPackTheOutput : ∃ h, Instr.sepia ∈ imageCommands ∧
    ValidImage rowB.params.capacity rowB.operands h := ⟨_, by decide, valid_rowB⟩

/-- A snapshot that holds a command's output. -/
def outputAgain (i : Instr) (s : State) : State :=
  { s with input := ((nextOf (exec i s)).getD s).output }

theorem witness_OutputKeepsTheDimensions : ∃ t, Instr.invert ∈ imageCommands ∧
    ValidImage onePixel.params.capacity onePixel.operands ⟨30, 1, 1, 24⟩ ∧ exec .invert onePixel = .next t ∧
    (outputAgain .invert onePixel).operands.holdsOutputOf t := by
  refine ⟨_, by decide, valid_onePixel, imageCommand_of_valid (keepAlpha invertChannel) onePixel _ valid_onePixel, ?_⟩
  unfold Snapshot.holdsOutputOf; decide +kernel

theorem witness_InvertTwiceGivesTheImageBack : ∃ t, ValidImage onePixel.params.capacity onePixel.operands ⟨30, 1, 1, 24⟩ ∧
    exec .invert onePixel = .next t ∧ (outputAgain .invert onePixel).operands.holdsOutputOf t ∧
    (outputAgain .invert onePixel).params.capacity = onePixel.params.capacity := by
  obtain ⟨t, _, v, h, ho⟩ := witness_OutputKeepsTheDimensions
  exact ⟨t, v, h, ho, rfl⟩

theorem witness_ReflectTwiceGivesTheImageBack : ∃ t, ValidImage rowB.params.capacity rowB.operands ⟨30, 3, 1, 32⟩ ∧
    exec .reflect rowB = .next t ∧ (outputAgain .reflect rowB).operands.holdsOutputOf t ∧
    (outputAgain .reflect rowB).params.capacity = rowB.params.capacity := by
  refine ⟨_, valid_rowB, imageCommand_of_valid reflectChannel rowB _ valid_rowB, ?_, rfl⟩
  unfold Snapshot.holdsOutputOf; decide +kernel

/-- The image statements: a valid image of either depth, a pixel of it and its channels. -/
theorem witness_image_statements : ∃ h h' : Header, ValidImage imageA.params.capacity imageA.operands h ∧
    1 < h.height ∧ 1 < h.width ∧ ValidImage rowB.params.capacity rowB.operands h' ∧ 0 < h'.height ∧ 2 < h'.width ∧
    h'.bitDepth = 32 ∧ 3 < h'.bitDepth / 8 :=
  ⟨_, _, valid_imageA, by decide, by decide, valid_rowB, by decide, by decide, rfl, by decide⟩

theorem witness_GreyscaleAveragesThePixel : ∃ h, ValidImage imageA.params.capacity imageA.operands h ∧
    1 < h.height ∧ 1 < h.width := ⟨_, valid_imageA, by decide, by decide⟩

theorem witness_SepiaWeighsThePixel : ∃ h, ValidImage rowB.params.capacity rowB.operands h ∧
    0 < h.height ∧ 2 < h.width ∧ h.bitDepth = 32 := ⟨_, valid_rowB, by decide, by decide, rfl⟩

theorem witness_InvertComplementsThePixel : ∃ h, ValidImage rowB.params.capacity rowB.operands h ∧
    0 < h.height ∧ 2 < h.width ∧ h.bitDepth = 32 := ⟨_, valid_rowB, by decide, by decide, rfl⟩

theorem witness_ReflectMirrorsTheRows : ∃ h, ValidImage rowB.params.capacity rowB.operands h ∧
    0 < h.height ∧ 2 < h.width ∧ 3 < h.bitDepth / 8 := ⟨_, valid_rowB, by decide, by decide, by decide⟩

theorem witness_BlurAveragesTheClippedWindow : 2 < 3 ∧ 2 ≤ 2 ∧
    ∃ h, ValidImage imageA.params.capacity imageA.operands h ∧ 1 < h.height ∧ 1 < h.width :=
  ⟨by decide, by decide, _, valid_imageA, by decide, by decide⟩

theorem witness_EdgeTakesTheSobelMagnitude : ∃ h, ValidImage imageA.params.capacity imageA.operands h ∧
    0 < h.height ∧ 0 < h.width := ⟨_, valid_imageA, by decide, by decide⟩

theorem witness_BlurZeroCopiesTheImage : ∃ h, ValidImage rowB.params.capacity rowB.operands h ∧
    41 < rowB.operands.inLen.toNat := ⟨_, valid_rowB, by decide⟩

theorem witness_GreyValueRoundsToNearest : 255 ≤ 255 ∧ 0 ≤ 255 := by decide

theorem witness_SepiaSumBounds : 255 ≤ 255 ∧ 0 ≤ 255 := by decide

theorem witness_BlurWindowIsTheClippedSquare : ∃ h : Header, 2 ≤ 2 ∧ 0 < h.height ∧ 2 < h.width :=
  ⟨⟨30, 3, 1, 32⟩, by decide⟩

/-- A flat 3 by 3 grid and a flat single pixel, with a corner, a border pixel and the centre. -/
theorem witness_FlatImageKeepsItsBlackBorder :
    let flat := image 3 3 24 (List.replicate 27 10)
    (∀ i, i < 3 → ∀ j, j < 3 → px flat.operands ⟨30, 3, 3, 24⟩ i j 0 = 10) ∧
    (∀ i, i < 1 → ∀ j, j < 1 → px onePixel.operands ⟨30, 1, 1, 24⟩ i j 1 = 20) ∧
    edgeChannel flat.operands ⟨30, 3, 3, 24⟩ 0 0 0 = 42 ∧ edgeChannel flat.operands ⟨30, 3, 3, 24⟩ 0 1 0 = 40 ∧
    edgeChannel flat.operands ⟨30, 3, 3, 24⟩ 1 1 0 = 0 := by decide +kernel

theorem witness_ChannelValuesFitAByte : ∃ h : Header, 2 ≤ 2 ∧ 0 < h.height ∧ 2 < h.width := ⟨⟨30, 3, 1, 32⟩, by decide⟩

theorem witness_StartWriteStartsACommand : blank.seq = .idle ∧ (1 : Word).getLsbD 0 = true ∧
    (started .edge 1 blank).isBusy = true ∧ (2 : Word).getLsbD 0 = false := by decide

theorem witness_InterruptEnableChangesNoResult : ∃ t, exec (.blur 3) blank = .next t := ⟨_, rfl⟩

theorem witness_StatusWriteClearsTheNamedFlags : ∃ sn,
    ({ started .edge 0 blank with pending := [.access (.write .reg .w32 0x04 6)] } : State).seq = .busy sn 0 :=
  ⟨_, rfl⟩

theorem witness_OperandRegistersReadBack : blank.seq = .idle := rfl

theorem witness_BusyLocksTheOperands : (∃ sn, (started .edge 0 blank).seq = .busy sn 0) ∧
    (started .edge 0 blank).Inv ∧ (∃ t, hostAccess (.write .input .w32 76 5) (started .edge 0 blank) = .ok t) :=
  ⟨⟨_, rfl⟩, witness_StepKeepsTheInvariant.2, ⟨_, rfl⟩⟩

theorem witness_ConstantAndReadOnlyRegisters : blank.params.legal = true ∧ (∃ t, step blank = .next t) ∧
    0x3C ∈ [0x14, 0x18, 0x1C, 0x20, 0x24, 0x28, 0x2C, 0x30, 0x34, 0x38, 0x3C] :=
  ⟨by decide, ⟨_, rfl⟩, by decide⟩

theorem witness_HostAccessesOfInput : blank.seq = .idle ∧ 79 < blank.params.capacity ∧
    4 * 19 + 3 < blank.params.capacity ∧ (started .edge 1 blank).isBusy = true ∧
    (∃ t, hostAccess (.write .input .w8 79 1) (started .edge 1 blank) = .ok t) ∧ ∃ t, exec (.blur 3) blank = .next t :=
  ⟨rfl, by decide, by decide, rfl, ⟨_, rfl⟩, ⟨_, rfl⟩⟩

/-- A block with OUT bytes below an OUT_LEN. -/
def withOutput : State := { blank with output := Memory.writeBytes [] 0 [1, 2, 3, 4], outLen := 4 }

/-- A step that changes IN. -/
theorem witness_HostAccessesOfInput_write : ∃ t,
    step { blank with pending := [.access (.write .input .w8 79 1)] } = .next t ∧
    ({ blank with pending := [.access (.write .input .w8 79 1)] } : State).noResetNext = true ∧
    t.input ≠ blank.input := ⟨_, rfl, rfl, by decide⟩

theorem witness_HostAccessesOfOutput : (∃ t, hostAccess (.write .output .w8 3 9) withOutput = .ok t) ∧
    withOutput.seq = .idle ∧ 3 < withOutput.outLen.toNat ∧ withOutput.output.read 3 = some 4 ∧
    withOutput.outLen.toNat ≤ 4 ∧ 4 < withOutput.params.capacity ∧ (started .edge 1 withOutput).isBusy = true :=
  ⟨⟨_, rfl⟩, by decide⟩

/-- A 32-bit read at the end of OUT, and one whose bytes lie on both sides of OUT_LEN. -/
theorem witness_HostAccessesOfOutput_word : 4 * 19 + 3 < withOutput.params.capacity ∧
    4 * 0 + 1 < ({ withOutput with outLen := 2 } : State).outLen.toNat ∧
    ({ withOutput with outLen := 2 } : State).outLen.toNat ≤ 4 * 0 + 2 ∧ withOutput.output.read (4 * 0 + 1) = some 2 := by
  decide

theorem witness_HostWordsAreLittleEndian : (holding [1, 2, 3, 4]).input.read (4 * 0 + 3) = some 4 ∧
    (holding [1, 2, 3, 4]).seq = .idle ∧ withOutput.seq = .idle ∧ 4 * 0 + 3 < withOutput.outLen.toNat ∧
    withOutput.output.read (4 * 0) = some 1 ∧ 4 * 19 + 3 < blank.params.capacity ∧ 30 ≤ blank.params.capacity := by
  decide

/-- The last access that is no bus error and the first that is one, in each space. -/
theorem witness_BusErrorsAreExactlyThese : busError 80 .reg .w32 0x3C = none ∧
    busError 80 .reg .w32 0x40 = some .outOfRange ∧ busError 80 .input .w8 79 = none ∧
    busError 80 .input .w8 80 = some .outOfRange ∧ busError 80 .output .w32 76 = none ∧
    busError 80 .output .w32 80 = some .outOfRange ∧ busError 82 .output .w32 80 = some .outOfRange ∧
    busError 80 .output .w32 78 = some .misaligned ∧ busError 80 .reg .w8 0 = some .badWidth ∧
    busError 80 .input .w16 0 = some .badWidth := by decide

theorem witness_BusErrorChangesNoState :
    hostAccess (.read .input .w16 0) { blank with pending := [.access (.read .input .w16 0)] }
      = .error (.busError .badWidth) ∧
    blank.seq = .idle ∧ ∃ sn, (started .edge 1 blank).seq = .busy sn (0 + 1) := ⟨rfl, rfl, ⟨_, rfl⟩⟩

theorem witness_ReadsHaveNoSideEffect : (∃ t, hostAccess (.read .reg .w32 0x04) blank = .ok t) ∧
    ∃ t, hostAccess (.read .output .w8 79) blank = .ok t := ⟨⟨_, rfl⟩, ⟨_, rfl⟩⟩

/-- The ends of each window. -/
theorem witness_WindowsLocateTheirOffsets : blank.params.legal = true ∧ 63 < windowSize blank.params .reg ∧
    79 < windowSize blank.params .input ∧ locate blank.params 0x103F = some (.reg, 63) ∧
    locate blank.params 0x1040 = none ∧ locate blank.params 0x2000 = some (.input, 0) ∧
    locate blank.params 0x304F = some (.output, 79) ∧ locate blank.params 0x3050 = none := by decide

theorem witness_InterruptLineIsEnableAndDone : (∃ t, hostAccess (.write .reg .w32 0x00 2) blank = .ok t) ∧
    (2 : Word).getLsbD 0 = false ∧ (2 : Word).getLsbD 1 = true ∧ (1 : Word).getLsbD 0 = true ∧
    blank.isBusy = false ∧ (∃ t, hostAccess (.write .reg .w32 0x04 2) blank = .ok t) ∧
    ({ blank with pending := [.reset] } : State).noResetNext = false ∧
    ∃ t, step { blank with pending := [.reset] } = .next t :=
  ⟨⟨_, rfl⟩, by decide, by decide, by decide, rfl, ⟨_, rfl⟩, rfl, ⟨_, rfl⟩⟩

theorem witness_ResetLeavesTheResetValues :
    ({ started .edge 0 blank with pending := [.reset] } : State).params.legal = true ∧
    ({ started .edge 0 blank with pending := [.reset] } : State).noResetNext = false ∧
    ∃ u, step { started .edge 0 blank with pending := [.reset] } = .next u := ⟨by decide, rfl, ⟨_, rfl⟩⟩

theorem witness_ResetAbandonsTheRunningCommand :
    ({ started .edge 2 blank with pending := [.reset, .poll] } : State).pending = .reset :: [.poll] ∧
    ({ started .edge 2 blank with pending := [.reset, .poll] } : State).isBusy = true := ⟨rfl, rfl⟩

end Sys2Proof.Tests
end

/-! # 00_scope.md: the integer square root -/

section
namespace Sys2Proof.Machine

/-- 00_scope.md R12 as one equivalence: `m = isqrt N` gives the bound on the square, every other `m` the maximality. -/
theorem le_isqrt_iff (m N : Nat) : m ≤ isqrt N ↔ m * m ≤ N := by
  rw [isqrt_eq_sqrt, Nat.le_sqrt]

/-- Settles O36: the bitwise root is `Nat.sqrt` (`isqrt_eq_sqrt`), which Mathlib ties to the real root. -/
theorem isqrtIsTheFloorOfTheRoot : Obligations.IsqrtIsTheFloorOfTheRoot := by
  unfold Obligations.IsqrtIsTheFloorOfTheRoot
  intro N
  refine ⟨(le_isqrt_iff _ N).1 le_rfl, fun m => (le_isqrt_iff m N).2, ?_⟩
  rw [isqrt_eq_sqrt, Real.nat_floor_real_sqrt_eq_nat_sqrt]

end Sys2Proof.Machine
end

/-! # 10_state.md: the register window -/

/-! ### Accesses of a register by its offset -/

section
namespace Sys2Proof.Machine

theorem regAt_regOffset (r : Reg) : regAt (regOffset r) = r := by
  cases r <;> rfl

theorem regError_regOffset (r : Reg) : regError .w32 (regOffset r) = none := by
  cases r <;> rfl

/-- A read of a register changes the bus answer alone. -/
theorem hostAccess_read_regOffset (r : Reg) (s : State) :
    hostAccess (.read .reg .w32 (regOffset r)) s = .ok { s with response := .word (readReg s r) } := by
  simp only [hostAccess, busError, regError_regOffset, performRead, regAt_regOffset, respond]

/-- A write of a register does what `writeReg` says of it. -/
theorem hostAccess_write_regOffset (r : Reg) (v : Word) (s : State) :
    hostAccess (.write .reg .w32 (regOffset r) v) s = .ok { writeReg v s r with response := .written } := by
  simp only [hostAccess, busError, regError_regOffset, performWrite, regAt_regOffset, respond]

theorem hostAccess_write_regOffset_of_ignored {r : Reg} {v : Word} {s : State} (h : writeReg v s r = s) :
    hostAccess (.write .reg .w32 (regOffset r) v) s = .ok { s with response := .written } := by
  rw [hostAccess_write_regOffset, h]

/-- A write that is no bus error is performed. -/
theorem eq_performWrite_of_hostAccess {space : Space} {width : Width} {off : Nat} {v : Word} {s t : State}
    (h : hostAccess (.write space width off v) s = .ok t) : t = performWrite space width off v s := by
  simp only [hostAccess] at h
  split at h <;> cases h
  rfl

theorem answerAccess_of_ok {a : Access} {s t : State} (h : hostAccess a s = .ok t) : answerAccess a s = t := by
  simp only [answerAccess, h]

end Sys2Proof.Machine
end

/-! ### Steps of an idle block and of one about to complete -/

section
namespace Sys2Proof.Machine

/-- A completion that is due goes before every event but a reset (10_state.md R27). -/
theorem step_of_due {s : State} {sn : Snapshot} (hs : s.seq = .busy sn 0) (hr : s.noResetNext = true) :
    step s = completionStep sn.cmd s := by
  rcases step_cases s with ⟨rest, hp, _⟩ | ⟨_, ⟨sn', hs', h⟩ | ⟨hn, _⟩⟩
  · simp [State.noResetNext, hp, HostEvent.noReset] at hr
  · obtain rfl : sn = sn' := by simpa [hs] using hs'
    exact h
  · exact absurd hs (hn sn)

/-- On an idle block the host's next access takes effect, and nothing else happens. -/
theorem step_access_of_idle {s t : State} {a : Access} {rest : List HostEvent} (hs : s.seq = .idle)
    (hp : s.pending = .access a :: rest) (ha : hostAccess a s = .ok t) : step s = .next { t with pending := rest } := by
  have h : step s = .next (hostEvent (.access a) rest (tick s)) := by simp only [step, advance, hp, hs]
  rw [h, tick_of_idle s hs, hostEvent, answerAccess_pending, answerAccess_of_ok ha]

/-- No event of the host changes the parameters. -/
theorem HostEffect.params_eq {s t : State} {e : HostEvent} (h : HostEffect s e t) : t.params = s.params := by
  cases h with
  | access a t pending h he => exact h.frame.1
  | reset pending he => rfl

/-- IN_CAPACITY and the window bases are constants of the implementation (00_scope.md R1, R3). -/
theorem step_params {s t : State} (h : step s = .next t) : t.params = s.params := by
  rcases step_cases s with ⟨rest, _, h'⟩ | ⟨_, ⟨sn, _, h'⟩ | ⟨_, ⟨_, h'⟩ | ⟨e, rest, _, _, h'⟩⟩⟩
  · cases h'.symm.trans h; rfl
  · exact (completionStep_completed (h'.symm.trans h)).params
  · cases h'.symm.trans h; exact tick_params s
  · cases h'.symm.trans h; exact (hostEvent_effect e rest (tick s)).params_eq.trans (tick_params s)

end Sys2Proof.Machine
end

/-! ### CTRL: the start write and IE -/

section
namespace Sys2Proof.Machine

theorem ctrlWord_start (s : State) : (ctrlWord s).getLsbD 0 = false := by
  cases h : s.ie <;> simp [ctrlWord, h]

theorem ctrlWord_ie (s : State) : (ctrlWord s).getLsbD 1 = s.ie := by
  cases h : s.ie <;> simp [ctrlWord, h]

theorem ctrlWord_reserved (s : State) : (ctrlWord s).extractLsb' 2 30 = 0 := by
  cases h : s.ie <;> simp [ctrlWord, h]

theorem writeCtrl_of_start {v : Word} {s : State} (hs : s.seq = .idle) (hv : v.getLsbD 0 = true) :
    writeCtrl v s = startCommand { s with ie := v.getLsbD 1 } := by
  simp [writeCtrl, hv, (isBusy_eq_false s).2 hs]

theorem writeCtrl_of_no_start {v : Word} {s : State} (h : s.isBusy = true ∨ v.getLsbD 0 = false) :
    writeCtrl v s = { s with ie := v.getLsbD 1 } := by
  have hno : (v.getLsbD 0 && !s.isBusy) = false := by
    rcases h with h | h <;> simp only [h, Bool.not_true, Bool.and_false, Bool.false_and]
  simp only [writeCtrl, hno, Bool.false_eq_true, if_false]

theorem writeCtrl_ie (v : Word) (s : State) : (writeCtrl v s).ie = v.getLsbD 1 := by
  rcases writeCtrl_cases v s with ⟨_, _, h⟩ | ⟨_, h⟩ <;> simp [h]

theorem hostAccess_write_ctrl_of_no_start {v : Word} {s : State} (h : s.isBusy = true ∨ v.getLsbD 0 = false) :
    hostAccess (.write .reg .w32 (regOffset .ctrl) v) s = .ok { s with ie := v.getLsbD 1, response := .written } := by
  rw [hostAccess_write_regOffset, writeReg, writeCtrl_of_no_start h]

/-- Settles O43: `writeCtrl_of_start` while IDLE, `writeCtrl_of_no_start` elsewhere, and the bits of `ctrlWord`. -/
theorem startWriteStartsACommand : Obligations.StartWriteStartsACommand := by
  unfold Obligations.StartWriteStartsACommand
  refine ⟨fun s v hs hv => ?_, fun s v h => hostAccess_write_ctrl_of_no_start h, fun s => ?_⟩
  · refine ⟨_, hostAccess_write_regOffset .ctrl v s, ?_⟩
    rw [writeReg, writeCtrl_of_start hs hv]
    exact ⟨⟨_, _, rfl, rfl, rfl, rfl, rfl⟩, rfl⟩
  · exact ⟨_, hostAccess_read_regOffset .ctrl s, ctrlWord_start s, ctrlWord_ie s, ctrlWord_reserved s⟩

end Sys2Proof.Machine
end

/-! ### IE and the commands -/

section
namespace Sys2Proof.Machine

/-- IE takes no part in a completion: with another IE it ends in the same state but for IE. -/
def IgnoresIe (completion : State → Host.Outcome State Fault Refusal) : Prop :=
  ∀ (s t : State) (b : Bool), completion s = .next t → completion { s with ie := b } = .next { t with ie := b }

theorem operands_ie (s : State) (b : Bool) : State.operands { s with ie := b } = s.operands := rfl

theorem raiseError_ignoresIe (code : ErrorCode) : IgnoresIe fun s => .next (raiseError code s) := by
  intro s t b h
  cases h; rfl

theorem imageCommand_of_error (f : Channel) {s : State} {code : ErrorCode}
    (h : checkImage s.params.capacity s.operands = .error code) : imageCommand f s = .next (raiseError code s) := by
  simp only [imageCommand, h]

theorem imageCommand_ignoresIe (f : Channel) : IgnoresIe (imageCommand f) := by
  intro s t b h
  rcases imageCommand_cases f s with ⟨code, hc, h'⟩ | ⟨hd, v, h'⟩ <;> cases h'.symm.trans h
  · exact imageCommand_of_error f (s := { s with ie := b }) hc
  · exact imageCommand_of_valid f { s with ie := b } hd v

theorem execParse_ignoresIe : IgnoresIe execParse := by
  intro s t b h
  unfold execParse at h ⊢
  rw [operands_ie]
  cases hc : checkImage s.params.capacity s.operands <;> simp only [hc] at h ⊢ <;> cases h <;> rfl

theorem execReadLe_ignoresIe (n : Nat) : IgnoresIe (execReadLe n) := by
  intro s t b h
  unfold execReadLe at h ⊢
  rw [operands_ie]
  split_ifs at h ⊢ <;> cases h <;> rfl

theorem execBlur_ignoresIe (k : Nat) : IgnoresIe (execBlur k) := by
  intro s t b h
  unfold execBlur at h ⊢
  split_ifs at h ⊢
  · exact imageCommand_ignoresIe _ s t b h
  · exact raiseError_ignoresIe _ s t b h

theorem exec_ignoresIe (i : Instr) : IgnoresIe (exec i) := by
  cases i with
  | readLe n => exact execReadLe_ignoresIe n
  | parse => exact execParse_ignoresIe
  | blur k => exact execBlur_ignoresIe k
  | _ => exact imageCommand_ignoresIe _

theorem readReg_ie_of_ne_ctrl (s : State) (b : Bool) {r : Reg} (hr : r ≠ .ctrl) :
    readReg { s with ie := b } r = readReg s r := by
  cases r with
  | ctrl => exact absurd rfl hr
  | _ => rfl

/-- Settles O44: `writeCtrl_ie` and `ctrlWord_ie` for the register, `exec_ignoresIe` for the commands. -/
theorem interruptEnableChangesNoResult : Obligations.InterruptEnableChangesNoResult := by
  unfold Obligations.InterruptEnableChangesNoResult
  refine ⟨rfl, fun s => ?_, fun s v => ?_, exec_ignoresIe, fun s b => ⟨rfl, ?_, fun a => ⟨rfl, rfl⟩⟩⟩
  · exact ⟨_, hostAccess_read_regOffset .ctrl s, ctrlWord_ie s⟩
  · exact ⟨_, hostAccess_write_regOffset .ctrl v s, writeCtrl_ie v s⟩
  · exact fun r => readReg_ie_of_ne_ctrl s b

end Sys2Proof.Machine
end

/-! ### STATUS -/

section
namespace Sys2Proof.Machine

theorem hostAccess_write_status (v : Word) (s : State) :
    hostAccess (.write .reg .w32 (regOffset .status) v) s = .ok { s with
      done := s.done && !v.getLsbD 1, err := s.err && !v.getLsbD 2, response := .written } :=
  hostAccess_write_regOffset .status v s

/-- Settles O45: the due completion leaves the block idle with the write still pending, and the next step performs
it. -/
theorem statusWriteClearsTheNamedFlags : Obligations.StatusWriteClearsTheNamedFlags := by
  unfold Obligations.StatusWriteClearsTheNamedFlags
  refine ⟨fun s v => hostAccess_write_status v s, fun s sn v rest hs hp => ?_⟩
  have hdue : step s = completionStep sn.cmd s := step_of_due hs (by simp [State.noResetNext, hp, HostEvent.noReset])
  obtain ⟨t, ht⟩ := completionStep_next sn.cmd s
  have hc := completionStep_completed ht
  exact ⟨t, hdue.trans ht, hc.done, hc.pending,
    step_access_of_idle hc.seq (hc.pending.trans hp) (hostAccess_write_status v t)⟩

end Sys2Proof.Machine
end

/-! ### The operands of a running command -/

section
namespace Sys2Proof.Machine

theorem whenIdle_of_busy {s : State} (hb : s.isBusy = true) (t : State) : whenIdle s t = s := if_pos hb

/-- The operand registers (10_state.md R28 to R30). -/
def operandRegs : List Reg := [.cmd, .arg, .inLen]

theorem writeReg_operand_of_busy {s : State} (hb : s.isBusy = true) (v : Word) {r : Reg} (hr : r ∈ operandRegs) :
    writeReg v s r = s := by
  simp only [operandRegs, List.mem_cons, List.not_mem_nil, or_false] at hr
  rcases hr with rfl | rfl | rfl <;> exact whenIdle_of_busy hb _

theorem performWrite_input_of_busy {s : State} (hb : s.isBusy = true) (width : Width) (off : Nat) (v : Word) :
    performWrite .input width off v s = respond .written s := by
  have hi (bytes : List Byte) : writeInput off bytes s = s := whenIdle_of_busy hb _
  cases width <;> simp only [performWrite, hi]

/-- Settles O48: `whenIdle` drops the writes, and under the invariant the snapshot is live, so the registers read it. -/
theorem busyLocksTheOperands : Obligations.BusyLocksTheOperands := by
  unfold Obligations.BusyLocksTheOperands
  intro s sn wait v hs
  have hb : s.isBusy = true := (isBusy_eq_true s).2 ⟨sn, wait, hs⟩
  refine ⟨fun off hoff => ?_, fun width off t ht => ?_, fun hinv => ?_,
    hostAccess_write_ctrl_of_no_start (.inl hb), hostAccess_write_status v s⟩
  · have hmem : off ∈ operandRegs.map regOffset := by simpa [operandRegs, regOffset] using hoff
    obtain ⟨r, hr, rfl⟩ := List.mem_map.1 hmem
    exact hostAccess_write_regOffset_of_ignored (writeReg_operand_of_busy hb v hr)
  · exact (eq_performWrite_of_hostAccess ht).trans (performWrite_input_of_busy hb width off v)
  · obtain ⟨⟨hcmd, harg, hlen, _⟩, _⟩ := hinv.busy sn wait hs
    rw [hcmd, harg, hlen]
    exact ⟨hostAccess_read_regOffset .cmd s, hostAccess_read_regOffset .arg s, hostAccess_read_regOffset .inLen s⟩

end Sys2Proof.Machine
end

/-! ### CAPACITY, the reserved and the read-only registers -/

section
namespace Sys2Proof.Machine

theorem capacity_lt_of_legal {p : Config.Params} (h : p.legal = true) : p.capacity < 2 ^ 32 := by
  simp only [Config.Params.legal, Bool.and_eq_true, decide_eq_true_eq] at h
  omega

/-- The registers that ignore every write: the results, CAPACITY and the reserved ones (10_state.md R37, R38). -/
def readOnlyRegs : List Reg :=
  [.errcode, .result, .dataOffset, .width, .height, .bitDepth, .bpp, .outLen, .capacity, .reserved38, .reserved3C]

theorem writeReg_readOnly (v : Word) (s : State) {r : Reg} (hr : r ∈ readOnlyRegs) : writeReg v s r = s := by
  cases r with
  | ctrl | status | cmd | arg | inLen => exact absurd hr (by decide)
  | _ => rfl

/-- Settles O49: the capacity fits its register by legality, `step_params` keeps it, and the registers of
`readOnlyRegs` lie at the offsets the statement lists. -/
theorem constantAndReadOnlyRegisters : Obligations.ConstantAndReadOnlyRegisters := by
  unfold Obligations.ConstantAndReadOnlyRegisters
  intro s v hlegal
  refine ⟨⟨_, hostAccess_read_regOffset .capacity s, ?_⟩, fun t => step_params, ?_, fun off hoff => ?_⟩
  · exact (BitVec.toNat_ofNat _ _).trans (Nat.mod_eq_of_lt (capacity_lt_of_legal hlegal))
  · rintro off (rfl | rfl)
    exacts [hostAccess_read_regOffset .reserved38 s, hostAccess_read_regOffset .reserved3C s]
  · have hmem : off ∈ readOnlyRegs.map regOffset := hoff
    obtain ⟨r, hr, rfl⟩ := List.mem_map.1 hmem
    exact hostAccess_write_regOffset_of_ignored (writeReg_readOnly v s hr)

end Sys2Proof.Machine
end

/-! # 20_memory.md: the buffers on the bus -/

/-! ### Accesses of a buffer that are no bus error -/

section
namespace Sys2Proof.Machine

theorem bufferError_w8_of_lt {capacity off : Nat} (h : off < capacity) : bufferError capacity .w8 off = none :=
  if_pos h

theorem bufferError_w32_of_lt {capacity m : Nat} (h : 4 * m + 3 < capacity) :
    bufferError capacity .w32 (4 * m) = none := by
  have haligned : ¬4 * m % 4 ≠ 0 := by omega
  exact (if_neg haligned).trans (if_pos h)

/-- A read that is no bus error is performed. -/
theorem hostAccess_read_of_busError_none {space : Space} {width : Width} {off : Nat} {s : State}
    (h : busError s.params.capacity space width off = none) :
    hostAccess (.read space width off) s = .ok (performRead space width off s) := by
  simp only [hostAccess, h]

/-- A write that is no bus error succeeds, with the state `eq_performWrite_of_hostAccess` names. -/
theorem hostAccess_write_of_busError_none {space : Space} {width : Width} {off : Nat} {v : Word} {s : State}
    (h : busError s.params.capacity space width off = none) :
    hostAccess (.write space width off v) s = .ok (performWrite space width off v s) := by
  simp only [hostAccess, h]

end Sys2Proof.Machine
end

/-! ### The bytes a buffer access moves -/

section
namespace Sys2Proof.Machine

/-- A written byte of IN is no free value (20_memory.md R52). -/
theorem inByte_of_read {s : State} {a : Nat} {b : Byte} (h : s.input.read a = some b) : inByte s a = b :=
  Memory.byteOr_of_read _ _ _ _ h

/-- While IDLE, a stored byte of OUT below OUT_LEN is no free value (20_memory.md R53). -/
theorem outByte_of_read {s : State} {a : Nat} {b : Byte} (hs : s.seq = .idle) (ha : a < s.outLen.toNat)
    (h : s.output.read a = some b) : outByte s a = b := by
  have hvalid : (!s.isBusy && decide (a < s.outLen.toNat)) = true := by simp [(isBusy_eq_false s).2 hs, ha]
  exact (if_pos hvalid).trans (Memory.byteOr_of_read _ _ _ _ h)

theorem writeInput_of_idle {s : State} (hs : s.seq = .idle) (off : Nat) (bytes : List Byte) :
    writeInput off bytes s = { s with input := s.input.writeBytes off bytes } :=
  if_neg (by simp [(isBusy_eq_false s).2 hs])

theorem wordBytes_getElem? (v : Word) {i : Nat} (hi : i < 4) : (wordBytes v)[i]? = some (wordByte v i) := by
  interval_cases i <;> rfl

/-- A 32-bit write of IN stores byte `i` of the word at the `i`-th offset from its own (20_memory.md R56). -/
theorem performWrite_input_w32_read {s : State} (hs : s.seq = .idle) (off : Nat) (v : Word) {i : Nat} (hi : i < 4) :
    (performWrite .input .w32 off v s).input.read (off + i) = some (wordByte v i) := by
  calc (performWrite .input .w32 off v s).input.read (off + i)
      = (s.input.writeBytes off (wordBytes v)).read (off + i) := by
        rw [performWrite, writeInput_of_idle hs]; rfl
    _ = (wordBytes v)[i]? := Memory.read_writeBytes _ _ _ _ hi
    _ = some (wordByte v i) := wordBytes_getElem? v hi

end Sys2Proof.Machine
end

/-! ### The byte order of 32-bit accesses -/

section
namespace Sys2Proof.Machine

/-- Settles O53: the reads join the bytes of `inByte` and `outByte`, the write stores those of `wordByte`, and the
example reads byte 1 back from the word just written. -/
theorem hostWordsAreLittleEndian : Obligations.HostWordsAreLittleEndian := by
  unfold Obligations.HostWordsAreLittleEndian
  refine ⟨fun s m b0 b1 b2 b3 hm => ⟨fun h0 h1 h2 h3 => ?_, fun hs hlen h0 h1 h2 h3 => ?_⟩, fun s m v hs hm => ?_,
    fun s hs hcap => ?_⟩
  · refine ⟨_, hostAccess_read_of_busError_none (bufferError_w32_of_lt hm), ?_⟩
    rw [← inByte_of_read h0, ← inByte_of_read h1, ← inByte_of_read h2, ← inByte_of_read h3]
    rfl
  · refine ⟨_, hostAccess_read_of_busError_none (bufferError_w32_of_lt hm), ?_⟩
    rw [← outByte_of_read hs (by omega) h0, ← outByte_of_read hs (by omega) h1, ← outByte_of_read hs (by omega) h2,
      ← outByte_of_read hs hlen h3]
    rfl
  · exact ⟨_, hostAccess_write_of_busError_none (bufferError_w32_of_lt hm),
      fun i hi => performWrite_input_w32_read hs (4 * m) v hi⟩
  · have hw : hostAccess (.write .input .w32 0 0x44332211) s = .ok (performWrite .input .w32 0 0x44332211 s) :=
      hostAccess_write_of_busError_none (bufferError_w32_of_lt (m := 0) (by omega))
    obtain ⟨hparams, -⟩ := (hostAccess_effect hw).frame
    have hb : inByte (performWrite .input .w32 0 0x44332211 s) 1 = 0x22 :=
      inByte_of_read (performWrite_input_w32_read hs 0 0x44332211 (i := 1) (by decide))
    refine ⟨_, _, hw, hostAccess_read_of_busError_none (bufferError_w8_of_lt (by rw [hparams]; omega)), ?_⟩
    exact congrArg Response.byte hb

end Sys2Proof.Machine
end

/-! # 30_encoding.md: the opcode map and its illegal rest -/

/-! ### The decoder and the encoder -/

section
namespace Sys2Proof

theorem encodedFields (i : Instr) : Laws.EncodedFields.Statement i := by
  cases i with
  | readLe n => exact Laws.EncodedFields.readLe n
  | parse => exact Laws.EncodedFields.parse
  | greyscale => exact Laws.EncodedFields.greyscale
  | sepia => exact Laws.EncodedFields.sepia
  | invert => exact Laws.EncodedFields.invert
  | reflect => exact Laws.EncodedFields.reflect
  | blur k => exact Laws.EncodedFields.blur k
  | edge => exact Laws.EncodedFields.edge

theorem decode_encode {i : Instr} (h : i.wellFormed = true) : decode (encode i) = .ok i := by
  obtain ⟨hop, hparam, hrsv⟩ := encodedFields i h
  rw [decode, if_pos hrsv, hop, hparam, decodeOp_self h]

/-- No bit of a legal word is dropped: the fields `decode_ok` names are all of it. -/
theorem encode_of_decode_ok {w : Word} {i : Instr} (h : decode w = .ok i) : encode i = w := by
  obtain ⟨hrsv, hop, hparam, -⟩ := decode_ok h
  rw [encode, ← hop, ← hparam, BitVec.ofNat_toNat, BitVec.ofNat_toNat, BitVec.setWidth_eq, BitVec.setWidth_eq, ← hrsv,
    ← word_eq_fields]

theorem decode_eq_ok_iff (w : Word) (i : Instr) : decode w = .ok i ↔ i.wellFormed = true ∧ encode i = w := by
  constructor
  · intro h
    obtain ⟨-, -, -, hwf⟩ := decode_ok h
    exact ⟨hwf, encode_of_decode_ok h⟩
  · rintro ⟨hwf, rfl⟩
    exact decode_encode hwf

end Sys2Proof
end

/-! ### The thirteen legal commands -/

section
namespace Sys2Proof

/-- The commands with a legal PARAM, in the order of 30_encoding.md R73. -/
def legalCommands : List Instr :=
  [.readLe 1, .readLe 2, .readLe 3, .readLe 4, .parse, .greyscale, .sepia, .invert, .reflect, .blur 0, .blur 1,
    .blur 2, .edge]

theorem mem_legalCommands_iff (i : Instr) : i ∈ legalCommands ↔ i.wellFormed = true := by
  constructor
  · revert i; decide
  · intro h
    cases i with
    | readLe n =>
      obtain ⟨h1, h4⟩ := (legalCount_iff n).1 h
      interval_cases n <;> decide
    | blur k =>
      have hk := (legalRadius_iff k).1 h
      interval_cases k <;> decide
    | _ => decide

/-- The words of 30_encoding.md R73, each beside its command. -/
def opcodeMap : List (Word × Instr) := legalCommands.map fun i => (encode i, i)

theorem decode_eq_ok_iff_mem_opcodeMap (w : Word) (i : Instr) : decode w = .ok i ↔ (w, i) ∈ opcodeMap := by
  simp only [decode_eq_ok_iff, opcodeMap, List.mem_map, Prod.mk.injEq, mem_legalCommands_iff]
  constructor
  · rintro ⟨hwf, hw⟩
    exact ⟨i, hwf, hw, rfl⟩
  · rintro ⟨_, hwf, hw, rfl⟩
    exact ⟨hwf, hw⟩

/-- A word has a meaning exactly when it stands in the opcode map. -/
theorem decode_toOption_ne_none_iff (w : Word) : (decode w).toOption ≠ none ↔ w ∈ opcodeMap.map Prod.fst := by
  have hok : (decode w).toOption ≠ none ↔ ∃ i, decode w = .ok i := by
    cases decode w <;> simp [Except.toOption]
  simp only [hok, decode_eq_ok_iff_mem_opcodeMap, List.mem_map, Prod.exists, exists_and_right, exists_eq_right]

/-- Settles O3: `opcodeMap` is the statement's list, and the encoder and the decoder agree on it. -/
theorem thirteenWordsAreLegal : Obligations.ThirteenWordsAreLegal := by
  unfold Obligations.ThirteenWordsAreLegal
  exact ⟨rfl, decode_eq_ok_iff_mem_opcodeMap⟩

end Sys2Proof
end

/-! ### The five kinds of illegal words -/

section
namespace Sys2Proof.Machine

/-- Every arm of the decoder with a meaning is such a choice, on its condition on PARAM. -/
theorem ok_or_error_toOption_eq_none_iff (c : Prop) [Decidable c] (i : Instr) (e : Illegal) :
    (if c then Except.ok i else Except.error e).toOption = none ↔ ¬c := by
  split_ifs with h <;> simp [Except.toOption, h]

/-- Items 1, 3, 4 and 5 of 30_encoding.md R74, the ones about OP and PARAM. -/
theorem decodeOp_toOption_eq_none_iff (op param : Nat) : (decodeOp op param).toOption = none ↔
    (op = 0 ∨ 9 ≤ op) ∨ (op = 1 ∧ (param = 0 ∨ 5 ≤ param)) ∨ (op = 7 ∧ 3 ≤ param) ∨
      ((2 ≤ op ∧ op ≤ 6 ∨ op = 8) ∧ param ≠ 0) := by
  unfold decodeOp decodePlain
  split
  case h_1 => rw [ok_or_error_toOption_eq_none_iff, legalCount_iff]; omega
  case h_7 => rw [ok_or_error_toOption_eq_none_iff, legalRadius_iff]; omega
  case h_9 => simp only [imp_false] at *; exact iff_of_true rfl (by omega)
  all_goals rw [ok_or_error_toOption_eq_none_iff]; omega

/-- The decoder refuses exactly the words of 30_encoding.md R74. -/
theorem decode_toOption_eq_none_iff (w : Word) : (decode w).toOption = none ↔ illegalWord w := by
  unfold decode illegalWord
  by_cases hrsv : rsvField w = 0
  · have hitem2 : ¬rsvField w ≠ 0 := not_not.2 hrsv
    rw [if_pos hrsv, decodeOp_toOption_eq_none_iff]
    exact or_congr_right (or_iff_right hitem2).symm
  · rw [if_neg hrsv]
    exact ⟨fun _ => .inr (.inl hrsv), fun _ => rfl⟩

theorem completionStep_of_illegalWord {w : Word} (h : illegalWord w) (s : State) :
    completionStep w s = .next (failedState .illegalCommand s) := by
  rcases completionStep_cases w s with ⟨_, _, hstep⟩ | ⟨i, hok, _⟩
  · exact hstep
  · have hnone := (decode_toOption_eq_none_iff w).2 h
    rw [hok] at hnone
    cases hnone

/-- Settles O4: `decode_toOption_eq_none_iff` for R74's kinds, `opcodeMap` for the words that are none of them, and
`completionStep_of_illegalWord` for the failure. -/
theorem illegalWordsAreTheFiveKinds : Obligations.IllegalWordsAreTheFiveKinds := by
  unfold Obligations.IllegalWordsAreTheFiveKinds
  intro w
  refine ⟨decode_toOption_eq_none_iff w, ?_, fun s h => completionStep_of_illegalWord h s⟩
  rw [← decode_toOption_eq_none_iff]
  exact decode_toOption_ne_none_iff w

end Sys2Proof.Machine
end

/-! # 40_extract_and_codec.md: the extractor and the image frame -/

/-! ### The range check of READ_LE -/

section
namespace Sys2Proof.Machine

/-- The range check compares the end of the window; an empty window would need no offset in range. -/
theorem window_in_range_iff {a n length : Nat} (hn : 1 ≤ n) : a + n ≤ length ↔ ∀ i, i < n → a + i < length := by
  constructor
  · intro h i hi
    omega
  · intro h
    have hlast : a + (n - 1) < length := h (n - 1) (by omega)
    omega

/-- A success is the last case of `execReadLe_cases`, the only one with the window in range. -/
theorem execReadLe_succeeds_iff {n : Nat} {s : State} (hn : legalCount n = true)
    (hcap : s.operands.inLen.toNat ≤ s.params.capacity) : ∃ t, execReadLe n s = .next t ∧
      (t.errcode = .none ↔ s.operands.arg.toNat + n ≤ s.operands.inLen.toNat) := by
  rcases execReadLe_cases n s with ⟨hbad, _⟩ | ⟨_, hlong, _⟩ | ⟨_, _, hout, h⟩ | ⟨_, _, hin, h⟩
  · simp [hn] at hbad
  · omega
  · exact ⟨_, h, iff_of_false (by simp) (by omega)⟩
  · exact ⟨_, h, iff_of_true rfl hin⟩

/-- Settles O21: `execReadLe_succeeds_iff`, its bound read offset by offset (`window_in_range_iff`). -/
theorem readLeAdmitsExactlyTheOffsetsInRange : Obligations.ReadLeAdmitsExactlyTheOffsetsInRange := by
  unfold Obligations.ReadLeAdmitsExactlyTheOffsetsInRange
  intro n s h1 h4 hcap
  obtain ⟨t, ht, hiff⟩ := execReadLe_succeeds_iff ((legalCount_iff n).2 ⟨h1, h4⟩) hcap
  rw [window_in_range_iff h1] at hiff
  exact ⟨t, ht, hiff, fun hok i hi => (hiff.1 hok i hi).trans_le hcap⟩

end Sys2Proof.Machine
end

/-! ### The little-endian value -/

section
namespace Sys2Proof.Machine

/-- The recursion of `le` from the low end: 00_scope.md R10's sum with the byte at the lowest offset split off. -/
theorem le_succ_eq_low_byte_add (sn : Snapshot) (a n : Nat) :
    le sn a (n + 1) = (sn.byte a).toNat + 256 * le sn (a + 1) n := by
  induction n with
  | zero => simp [le]
  | succ n ih =>
    rw [le, ih, le, show a + (n + 1) = a + 1 + n by omega]
    ring

/-- The byte at the lowest offset lands in bits 7:0 (40_extract_and_codec.md R101). -/
theorem toNat_append_byte_eq_le {sn : Snapshot} {a n w : Nat} {x : BitVec w} (hx : x.toNat = le sn (a + 1) n) :
    (x ++ sn.byte a).toNat = le sn a (n + 1) := by
  rw [BitVec.toNat_append, ← Nat.shiftLeft_add_eq_or_of_lt (sn.byte a).isLt, Nat.shiftLeft_eq, hx,
    le_succ_eq_low_byte_add]
  omega

theorem ofNat_le_eq_setWidth {sn : Snapshot} {a n w : Nat} {x : BitVec w} (hx : x.toNat = le sn a n) :
    BitVec.ofNat 32 (le sn a n) = x.setWidth 32 := by
  rw [← hx, BitVec.ofNat_toNat]

/-- Settles O22: `le_eq_sum` and `le_lt` for the sum, and `toNat_append_byte_eq_le` for the bits, one byte at a
time. -/
theorem littleEndianValueIsTheBytes : Obligations.LittleEndianValueIsTheBytes := by
  unfold Obligations.LittleEndianValueIsTheBytes
  intro sn a
  have h1 (b : Nat) : (sn.byte b).toNat = le sn b 1 := by simp [le]
  have h2 (b : Nat) : (sn.byte (b + 1) ++ sn.byte b).toNat = le sn b 2 := toNat_append_byte_eq_le (h1 (b + 1))
  have h3 (b : Nat) : (sn.byte (b + 2) ++ sn.byte (b + 1) ++ sn.byte b).toNat = le sn b 3 :=
    toNat_append_byte_eq_le (h2 (b + 1))
  have h4 : (sn.byte (a + 3) ++ sn.byte (a + 2) ++ sn.byte (a + 1) ++ sn.byte a).toNat = le sn a 4 :=
    toNat_append_byte_eq_le (h3 (a + 1))
  refine ⟨fun n _ _ => ⟨le_eq_sum sn a n, ?_⟩, ofNat_le_eq_setWidth (h1 a), ofNat_le_eq_setWidth (h2 a),
    ofNat_le_eq_setWidth (h3 a), ofNat_le_eq_setWidth h4⟩
  rw [pow_mul]
  exact le_lt sn a n

end Sys2Proof.Machine
end

/-! ### BLUR 0 and the round trip -/

section
namespace Sys2Proof.Machine

theorem exec_blur_of_le_two {k : Nat} (hk : k ≤ 2) (s : State) :
    exec (.blur k) s = imageCommand (keepAlpha (blurChannel k)) s :=
  if_pos ((legalRadius_iff k).2 hk)

/-- A window of radius 0 is its centre alone (42_neighborhood_ops.md R151). -/
theorem windowLen_zero (x size : Nat) : windowLen x 0 size = 1 := by
  unfold windowLen windowLo
  omega

theorem blurChannel_zero (sn : Snapshot) (h : Header) (r c ch : Nat) :
    blurChannel 0 sn h r c ch = px sn h r c ch := by
  simp [blurChannel, windowSum, windowCount, windowLen_zero, windowLo, sumFrom]

theorem keepAlpha_eq_px {f : Channel} {sn : Snapshot} {h : Header} {r c ch : Nat}
    (hf : f sn h r c ch = px sn h r c ch) : keepAlpha f sn h r c ch = px sn h r c ch := by
  unfold keepAlpha
  split_ifs with hch
  · rw [hch]
  · exact hf

/-- 40_extract_and_codec.md R116: a rule that changes no pixel byte packs IN itself. -/
theorem packedByte_of_copies {f : Channel} {capacity : Nat} {sn : Snapshot} {h : Header}
    (v : ValidImage capacity sn h)
    (hf : ∀ r c ch, r < h.height → c < h.width → f sn h r c ch = px sn h r c ch) (a : Nat) :
    packedByte f sn h a = sn.byte a := by
  have hp : 0 < bytesPerPixel h := by rcases v.bytesPerPixel_eq with hp | hp <;> omega
  rcases offset_cases h a v.grid.1 hp with ha | ⟨r, c, ch, hr, hc, hch, rfl⟩ | ha
  · exact packedByte_header f sn h a ha
  · rw [packedByte_pixel f sn h hr hc hch, hf r c ch hr hc, ofNat_px]
  · exact packedByte_trailing f sn h a ha

/-- Settles O33: BLUR 0's rule copies every pixel byte (`blurChannel_zero`, and `keepAlpha_eq_px` for the alpha
byte), so the packed image is IN. -/
theorem blurZeroCopiesTheImage : Obligations.BlurZeroCopiesTheImage := by
  unfold Obligations.BlurZeroCopiesTheImage
  intro s h v
  refine ⟨_, (exec_blur_of_le_two (Nat.zero_le 2) s).trans (imageCommand_of_valid _ s h v), rfl, fun a ha => ?_⟩
  have hcopies := packedByte_of_copies (f := keepAlpha (blurChannel 0)) v
    (fun r c ch _ _ => keepAlpha_eq_px (blurChannel_zero s.operands h r c ch)) a
  exact (storeImage_read _ s.operands h s a ha).trans (congrArg some hcopies)

end Sys2Proof.Machine
end

/-! # 41_point_ops.md: the point operations -/

/-! ### GREYSCALE's rounded average -/

section
namespace Sys2Proof.Machine

/-- The distance of an integer to the average `S / 3` in sixths, where comparing it with `1 / 2` is comparing two
integers, the numerator and 3. -/
theorem abs_sub_third_eq_sixths (m : ℤ) (S : ℕ) : |(m : ℚ) - (S : ℚ) / 3| = ((|6 * m - 2 * S| : ℤ) : ℚ) / 6 := by
  have hsixths : (m : ℚ) - (S : ℚ) / 3 = ((6 * m - 2 * S : ℤ) : ℚ) / 6 := by
    push_cast
    ring
  rw [hsixths, abs_div, ← Int.cast_abs, abs_of_pos (by norm_num : (0 : ℚ) < 6)]

/-- 41_point_ops.md R131: an integer rounds `S / 3` when three times it is next to `S`. -/
theorem abs_sub_third_lt_half {m : ℤ} {S : ℕ} (hm : |3 * m - S| ≤ 1) : |(m : ℚ) - (S : ℚ) / 3| < 1 / 2 := by
  have hlt : |6 * m - 2 * (S : ℤ)| < 3 := by
    rw [abs_le] at hm
    rw [abs_lt]
    omega
  have hcast : ((|6 * m - 2 * (S : ℤ)| : ℤ) : ℚ) < 3 := by exact_mod_cast hlt
  rw [abs_sub_third_eq_sixths]
  linarith

/-- 41_point_ops.md R131: the fraction of a third is never one half; a tie would make `6 m - 2 S` odd. -/
theorem abs_sub_third_ne_half (m : ℤ) (S : ℕ) : |(m : ℚ) - (S : ℚ) / 3| ≠ 1 / 2 := by
  have hodd : |6 * m - 2 * (S : ℤ)| ≠ 3 := by
    rw [Ne, abs_eq (by norm_num)]
    omega
  have hcast : ((|6 * m - 2 * (S : ℤ)| : ℤ) : ℚ) ≠ 3 := by exact_mod_cast hodd
  rw [abs_sub_third_eq_sixths]
  intro htie
  exact hcast (by linarith)

theorem abs_three_mul_greyValue_sub_le (b g r : Nat) : |3 * (greyValue b g r : ℤ) - (b + g + r : ℕ)| ≤ 1 := by
  rw [abs_le, greyValue]
  omega

theorem greyValue_le {b g r : Nat} (hb : b ≤ 255) (hg : g ≤ 255) (hr : r ≤ 255) : greyValue b g r ≤ 255 := by
  unfold greyValue
  omega

/-- Settles O37: the value is next to a third of the sum (`abs_three_mul_greyValue_sub_le`), and no integer ties. -/
theorem greyValueRoundsToNearest : Obligations.GreyValueRoundsToNearest := by
  unfold Obligations.GreyValueRoundsToNearest
  intro b g r hb hg hr S
  have hnear : |((greyValue b g r : ℤ) : ℚ) - (S : ℚ) / 3| < 1 / 2 :=
    abs_sub_third_lt_half (abs_three_mul_greyValue_sub_le b g r)
  exact ⟨by simpa using hnear, fun m => abs_sub_third_ne_half m S, greyValue_le hb hg hr⟩

end Sys2Proof.Machine
end

/-! ### SEPIA's sums -/

section
namespace Sys2Proof.Machine

/-- The weights are positive, so a white pixel has the largest sum (41_point_ops.md R133). -/
theorem sepiaSum_le_white {b g r : Nat} (hb : b ≤ 255) (hg : g ≤ 255) (hr : r ≤ 255) (ch : Nat) :
    sepiaSum b g r ch ≤ sepiaSum 255 255 255 ch := by
  match ch with
  | 0 | 1 | _ + 2 =>
    simp only [sepiaSum]
    omega

/-- The red sum is the largest (41_point_ops.md R133). -/
theorem sepiaSum_white_le (ch : Nat) : sepiaSum 255 255 255 ch ≤ 344505 := by
  match ch with
  | 0 | 1 | _ + 2 => simp [sepiaSum]

theorem sepiaValue_eq_of_le {b g r ch : Nat} (h : (sepiaSum b g r ch + 500) / 1000 ≤ 255) :
    sepiaValue b g r ch = (sepiaSum b g r ch + 500) / 1000 :=
  Nat.min_eq_left h

theorem sepiaValue_lt_of_gt {b g r ch : Nat} (h : 255 < (sepiaSum b g r ch + 500) / 1000) :
    sepiaValue b g r ch < (sepiaSum b g r ch + 500) / 1000 :=
  (clamp255_le _).trans_lt h

/-- The alpha default at channel 3 (40_extract_and_codec.md R115). -/
theorem keepAlpha_alpha (f : Channel) (sn : Snapshot) (h : Header) (r c : Nat) :
    keepAlpha f sn h r c 3 = px sn h r c 3 :=
  if_pos rfl

/-- Settles O38: each sum is bounded by a white pixel's (`sepiaSum_le_white`), which are evaluated. -/
theorem sepiaSumBounds : Obligations.SepiaSumBounds := by
  unfold Obligations.SepiaSumBounds
  refine ⟨fun b g r hb hg hr => ?_, rfl, rfl, rfl, ?_, keepAlpha_alpha sepiaChannel⟩
  · have hwhite := sepiaSum_le_white hb hg hr
    have hblue : sepiaSum b g r 0 ≤ 238935 := hwhite 0
    have hvalue := sepiaValue_eq_of_le (b := b) (g := g) (r := r) (ch := 0) (by omega)
    refine ⟨hwhite 2, hwhite 1, hblue, hvalue, by omega, fun ch => ?_⟩
    have hsum : sepiaSum b g r ch ≤ 344505 := (hwhite ch).trans (sepiaSum_white_le ch)
    omega
  · rintro ch (rfl | rfl) <;> exact sepiaValue_lt_of_gt (by decide)

end Sys2Proof.Machine
end

/-! # 60_exceptions.md: errors and the interrupt line -/

/-! ### What an error changes -/

section
namespace Sys2Proof.Machine

/-- The flags of R183 are those of every completion, with ERR set because the code is a failure. -/
theorem raiseError_eq_failedState {code : ErrorCode} (h : code ≠ .none) (s : State) :
    raiseError code s = failedState code s := by
  simp [raiseError, complete, completionFlags, failedState, h]

/-- Of the cases of `exec_cases` only `raiseError` leaves a code other than NONE. -/
theorem eq_failedState_of_exec {i : Instr} {s t : State} (h : exec i s = .next t) (hcode : t.errcode ≠ .none) :
    t = failedState t.errcode s := by
  rcases exec_cases i s with ⟨code, hne, h'⟩ | ⟨_, _, _, _, _, h'⟩ | ⟨_, _, _, h'⟩ | ⟨_, _, _, _, h'⟩ <;>
    cases h'.symm.trans h
  case inl => exact raiseError_eq_failedState hne s
  all_goals exact absurd rfl hcode

theorem eq_failedState_of_completionStep {w : Word} {s t : State} (h : completionStep w s = .next t)
    (hcode : t.errcode ≠ .none) : t = failedState t.errcode s := by
  rcases completionStep_cases w s with ⟨_, _, h'⟩ | ⟨i, _, h'⟩
  · cases h'.symm.trans h
    exact raiseError_eq_failedState hcode s
  · exact eq_failedState_of_exec (h'.symm.trans h) hcode

/-- Settles O15: every failure goes through `raiseError`, the one operation that ends in `failedState`. -/
theorem errorChangesOnlyStatusAndCode : Obligations.ErrorChangesOnlyStatusAndCode := by
  unfold Obligations.ErrorChangesOnlyStatusAndCode
  exact ⟨fun _ _ _ => eq_failedState_of_completionStep, fun _ _ _ => eq_failedState_of_exec⟩

end Sys2Proof.Machine
end

/-! ### The order of the checks -/

section
namespace Sys2Proof.Machine

/-- The completion reports the first of the conditions that holds (60_exceptions.md R182). -/
def Reports (completion : Host.Outcome State Fault Refusal) (checks : List (Bool × ErrorCode)) : Prop :=
  ∃ t : State, completion = .next t ∧ t.errcode = firstError checks

/-- READ_LE's row of R182, after the illegal-command check. -/
def readLeChecks (n capacity : Nat) (sn : Snapshot) : List (Bool × ErrorCode) :=
  [(decide (capacity < sn.inLen.toNat), .lenRange),
   (decide (sn.inLen.toNat < sn.arg.toNat + n), .readRange)]

/-- The row of PARSE and the image commands in R182, after the illegal-command and the length check, over the header
fields. -/
def headerChecks (length : Nat) (h : Header) : List (Bool × ErrorCode) :=
  [(decide (length < 30 ∨ h.dataOffset < 30 ∨ length < h.dataOffset), .headerTruncated),
   (decide (h.bitDepth ≠ 24 ∧ h.bitDepth ≠ 32), .badBitDepth),
   (decide (h.width = 0 ∨ h.height = 0), .emptyGrid),
   (decide (length - h.dataOffset < gridBytes h), .bodyTruncated)]

/-- The row of PARSE and the image commands in R182, after the illegal-command check. -/
def imageChecks (capacity : Nat) (sn : Snapshot) : List (Bool × ErrorCode) :=
  (decide (capacity < sn.inLen.toNat), .lenRange) :: headerChecks sn.inLen.toNat (readHeader sn)

/-- The row of R182 that a word with these fields follows once it is legal. -/
def laterChecks (op param capacity : Nat) (sn : Snapshot) : List (Bool × ErrorCode) :=
  if op = 1 then readLeChecks param capacity sn else imageChecks capacity sn

/-- The code a finished sequence of image checks stands for, NONE where it passed (60_exceptions.md R180). -/
def checkedCode : Except ErrorCode Header → ErrorCode
  | .error code => code
  | .ok _ => .none

@[simp] theorem checkedCode_error (code : ErrorCode) : checkedCode (.error code) = code := rfl
@[simp] theorem checkedCode_ok (h : Header) : checkedCode (.ok h) = .none := rfl

/-- The model makes the header checks in the order of R182; two of them report one code there (`ite_or`). -/
theorem checkedCode_checkHeader (length : Nat) (h : Header) :
    checkedCode (checkHeader length h) = firstError (headerChecks length h) := by
  simp only [checkHeader, apply_ite checkedCode, checkedCode_error, checkedCode_ok,
    headerChecks, firstError, decide_eq_true_eq, ite_or]

theorem checkedCode_checkImage (capacity : Nat) (sn : Snapshot) :
    checkedCode (checkImage capacity sn) = firstError (imageChecks capacity sn) := by
  simp only [checkImage, validate, apply_ite checkedCode, checkedCode_error, checkedCode_checkHeader, imageChecks,
    firstError, decide_eq_true_eq]

/-- What fails with the code of the image checks and succeeds on a valid image reports the checks in their order. -/
theorem reports_imageChecks {completion : Host.Outcome State Fault Refusal} {s : State} {success : Header → State}
    (hsuccess : ∀ h, (success h).errcode = .none)
    (hcases : (∃ code, checkImage s.params.capacity s.operands = .error code ∧
        completion = .next (raiseError code s)) ∨
      ∃ h, ValidImage s.params.capacity s.operands h ∧ completion = .next (success h)) :
    Reports completion (imageChecks s.params.capacity s.operands) := by
  rw [Reports, ← checkedCode_checkImage]
  rcases hcases with ⟨code, hfail, h⟩ | ⟨hd, hvalid, h⟩
  · exact ⟨_, h, by rw [hfail, checkedCode_error, raiseError_errcode]⟩
  · exact ⟨_, h, by rw [(checkImage_ok_iff _ _ _).2 hvalid, checkedCode_ok, hsuccess]⟩

theorem imageCommand_reports (f : Channel) (s : State) :
    Reports (imageCommand f s) (imageChecks s.params.capacity s.operands) :=
  reports_imageChecks (fun _ => rfl) (imageCommand_cases f s)

theorem execParse_reports (s : State) : Reports (execParse s) (imageChecks s.params.capacity s.operands) :=
  reports_imageChecks (fun _ => rfl) (execParse_cases s)

theorem execReadLe_reports {n : Nat} (hn : legalCount n = true) (s : State) :
    Reports (execReadLe n s) (readLeChecks n s.params.capacity s.operands) := by
  rcases execReadLe_cases n s with ⟨hbad, _⟩ | ⟨_, hlong, h⟩ | ⟨_, hfits, hout, h⟩ | ⟨_, hfits, hin, h⟩
  · simp [hn] at hbad
  · exact ⟨_, h, by simp [readLeChecks, firstError, hlong]⟩
  · exact ⟨_, h, by simp [readLeChecks, firstError, hfits.not_gt, hout]⟩
  · exact ⟨_, h, by simp [readLeChecks, firstError, hfits.not_gt, hin.not_gt, readLeState]⟩

theorem exec_reports {i : Instr} (hi : i.wellFormed = true) (s : State) :
    Reports (exec i s) (laterChecks i.op i.param s.params.capacity s.operands) := by
  cases i with
  | readLe n => exact execReadLe_reports hi s
  | parse => exact execParse_reports s
  | blur k => rw [exec_blur_of_le_two ((legalRadius_iff k).1 hi)]; exact imageCommand_reports _ s
  | _ => exact imageCommand_reports _ s

/-- 60_exceptions.md R182 for a command word: first that it is illegal, then the row of its fields. -/
theorem completionStep_reports (w : Word) (s : State) :
    Reports (completionStep w s) (((decode w).toOption.isNone, .illegalCommand) ::
      laterChecks (opField w).toNat (paramField w).toNat s.params.capacity s.operands) := by
  rcases completionStep_cases w s with ⟨_, herr, h⟩ | ⟨i, hok, h⟩
  · rw [herr]
    exact ⟨_, h, rfl⟩
  · obtain ⟨-, hop, hparam, hwf⟩ := decode_ok hok
    rw [h, hok, hop, hparam]
    exact exec_reports hwf s

/-- Settles O16: `completionStep_reports`, with the row picked by the operation code. -/
theorem firstFailedCheckIsReported : Obligations.FirstFailedCheckIsReported := by
  unfold Obligations.FirstFailedCheckIsReported
  intro w s
  obtain ⟨t, ht, hcode⟩ := completionStep_reports w s
  refine ⟨t, ht, fun (hop : (opField w).toNat = 1) => ?_, fun (hop : (opField w).toNat ≠ 1) => ?_⟩
  · rw [laterChecks, if_pos hop] at hcode
    exact hcode
  · rw [laterChecks, if_neg hop] at hcode
    exact hcode

end Sys2Proof.Machine
end

/-! ### When ILLEGAL_COMMAND is reported -/

section
namespace Sys2Proof.Machine

/-- No check reports a code that its list does not name. -/
theorem firstError_ne {code : ErrorCode} (hnone : code ≠ .none) {checks : List (Bool × ErrorCode)}
    (h : code ∉ checks.map Prod.snd) : firstError checks ≠ code := by
  induction checks with
  | nil => exact hnone.symm
  | cons c checks ih =>
    obtain ⟨hhead, htail⟩ : code ≠ c.2 ∧ code ∉ checks.map Prod.snd := by simpa using h
    rw [firstError]
    split_ifs
    · exact hhead.symm
    · exact ih htail

/-- A code that no later check reports is reported exactly when its own condition holds. -/
theorem firstError_cons_eq_iff {holds : Bool} {code : ErrorCode} {checks : List (Bool × ErrorCode)}
    (h : firstError checks ≠ code) : firstError ((holds, code) :: checks) = code ↔ holds = true := by
  cases holds <;> simp [firstError, h]

theorem firstError_laterChecks_ne_illegalCommand (op param capacity : Nat) (sn : Snapshot) :
    firstError (laterChecks op param capacity sn) ≠ .illegalCommand := by
  apply firstError_ne (by decide)
  unfold laterChecks
  split_ifs
  · simp [readLeChecks]
  · simp [imageChecks, headerChecks]

theorem completionStep_errcode_illegalCommand_iff {w : Word} {s t : State} (h : completionStep w s = .next t) :
    t.errcode = .illegalCommand ↔ illegalWord w := by
  obtain ⟨t', ht', hcode⟩ := completionStep_reports w s
  cases ht'.symm.trans h
  rw [hcode, firstError_cons_eq_iff (firstError_laterChecks_ne_illegalCommand _ _ _ _), Option.isNone_iff_eq_none,
    decode_toOption_eq_none_iff]

/-- Settles O17: no check after the first reports ILLEGAL_COMMAND, and `startCommand` leaves ERRCODE alone. -/
theorem illegalCommandIsFoundAtCompletion : Obligations.IllegalCommandIsFoundAtCompletion := by
  unfold Obligations.IllegalCommandIsFoundAtCompletion
  refine ⟨fun s sn hs hr => ?_, fun s v hs hv => ?_⟩
  · obtain ⟨t, ht⟩ := completionStep_next sn.cmd s
    exact ⟨t, (step_of_due hs hr).trans ht, completionStep_errcode_illegalCommand_iff ht⟩
  · refine ⟨_, hostAccess_write_regOffset .ctrl v s, ?_⟩
    rw [writeReg, writeCtrl_of_start hs hv]
    exact ⟨rfl, rfl, rfl⟩

end Sys2Proof.Machine
end

/-! ### The interrupt line -/

section
namespace Sys2Proof.Machine

theorem irq_of_done {s : State} (h : s.done = true) : irq s = s.ie := by
  rw [irq, h, Bool.and_true]

theorem irq_of_not_done {s : State} (h : s.done = false) : irq s = false := by
  rw [irq, h, Bool.and_false]

theorem irq_of_not_ie {s : State} (h : s.ie = false) : irq s = false := by
  rw [irq, h, Bool.false_and]

theorem irq_of_completionStep {w : Word} {s t : State} (h : completionStep w s = .next t) : irq t = s.ie :=
  (irq_of_done (completionStep_completed h).done).trans (completionStep_completed h).ie

theorem writeCtrl_done_of_no_start {v : Word} {s : State} (h : v.getLsbD 0 = false) :
    (writeCtrl v s).done = s.done := by
  rw [writeCtrl_of_no_start (.inr h)]

theorem writeCtrl_done_of_start {v : Word} {s : State} (hs : s.seq = .idle) (hv : v.getLsbD 0 = true) :
    (writeCtrl v s).done = false := by
  rw [writeCtrl_of_start hs hv, startCommand_done]

/-- A step on a pending reset is the reset (70_reset_and_hazards.md R212). -/
theorem step_of_reset_pending {s : State} (h : s.noResetNext = false) :
    ∃ rest, step s = .next (takeReset { s with pending := rest }) := by
  rcases step_cases s with ⟨rest, _, hstep⟩ | ⟨hno, _⟩
  · exact ⟨rest, hstep⟩
  · simp [h] at hno

/-- Settles O58: each event of R190 by what it leaves of IE and DONE. -/
theorem interruptLineIsEnableAndDone : Obligations.InterruptLineIsEnableAndDone := by
  unfold Obligations.InterruptLineIsEnableAndDone
  refine ⟨fun _ => rfl, fun w s => ?_, fun s t v ht => ?_, fun s t v hv ht => ?_, fun s t hr ht => ?_⟩
  · obtain ⟨t, ht⟩ := completionStep_next w s
    exact ⟨t, ht, (completionStep_completed ht).done, irq_of_completionStep ht⟩
  · obtain rfl : respond .written (writeCtrl v s) = t := (eq_performWrite_of_hostAccess ht).symm
    have hie : (respond .written (writeCtrl v s)).ie = v.getLsbD 1 := writeCtrl_ie v s
    refine ⟨fun h0 h1 => ?_, fun h0 hb => ?_, fun h1 => irq_of_not_ie (hie.trans h1)⟩
    · rw [irq, hie, h1, Bool.true_and]
      exact writeCtrl_done_of_no_start h0
    · exact irq_of_not_done (writeCtrl_done_of_start ((isBusy_eq_false s).1 hb) h0)
  · obtain rfl : respond .written (clearStatus v s) = t := (eq_performWrite_of_hostAccess ht).symm
    exact irq_of_not_done (by simp [hv])
  · obtain ⟨rest, hstep⟩ := step_of_reset_pending hr
    cases hstep.symm.trans ht
    exact irq_of_not_done (takeReset_done _)

end Sys2Proof.Machine
end

/-! # 70_reset_and_hazards.md: reset -/

section
namespace Sys2Proof.Machine

/-- The parameters of the implementation are legal, whichever the free choice is (00_scope.md R1, R3). -/
theorem params_legal : Config.params.legal = true := by
  unfold Config.params
  split
  · assumption
  · decide

theorem ctrlWord_of_not_ie {s : State} (hie : s.ie = false) : ctrlWord s = 0 := by
  rw [ctrlWord, hie]; rfl

theorem statusWord_of_clear {s : State} (herr : s.err = false) (hdone : s.done = false) (hseq : s.seq = .idle) :
    statusWord s = 0 := by
  rw [statusWord, herr, hdone, (isBusy_eq_false s).2 hseq]; rfl

/-- The registers R210 gives the value 0: all but CAPACITY. -/
def zeroAtReset : List Reg :=
  [.ctrl, .status, .cmd, .arg, .inLen, .errcode, .result, .dataOffset, .width, .height, .bitDepth, .bpp, .outLen,
    .reserved38, .reserved3C]

theorem readReg_resetWith (p : Config.Params) (pending : List HostEvent) (draws : Nat) {r : Reg}
    (hr : r ∈ zeroAtReset) : readReg (State.resetWith p pending draws) r = 0 := by
  cases r with
  | ctrl => exact ctrlWord_of_not_ie rfl
  | status => exact statusWord_of_clear rfl rfl rfl
  | capacity => exact absurd hr (by decide)
  | _ => rfl

/-- The state of reset and the state after a reset event are both `State.resetWith` of legal parameters. -/
theorem eq_resetWith_of_reset {u : State}
    (h : u = State.reset ∨ ∃ s : State, s.params.legal = true ∧ s.noResetNext = false ∧ step s = .next u) :
    ∃ p pending draws, p.legal = true ∧ u = State.resetWith p pending draws := by
  rcases h with rfl | ⟨s, hlegal, hr, hu⟩
  · exact ⟨Config.params, [], 0, params_legal, rfl⟩
  · obtain ⟨rest, hstep⟩ := step_of_reset_pending hr
    cases hstep.symm.trans hu
    exact ⟨s.params, rest, s.draws, hlegal, rfl⟩

/-- Settles O59: every such state is a `State.resetWith` (`eq_resetWith_of_reset`), whose registers
`readReg_resetWith` gives; CAPACITY is that of O49. -/
theorem resetLeavesTheResetValues : Obligations.ResetLeavesTheResetValues := by
  unfold Obligations.ResetLeavesTheResetValues
  refine ⟨params_legal, fun u hu => ?_⟩
  obtain ⟨p, pending, draws, hlegal, rfl⟩ := eq_resetWith_of_reset hu
  refine ⟨rfl, irq_of_not_ie rfl, fun off hoff => ?_, ?_, fun a => ⟨rfl, rfl⟩⟩
  · have hmem : off ∈ zeroAtReset.map regOffset := hoff
    obtain ⟨r, hr, rfl⟩ := List.mem_map.1 hmem
    rw [hostAccess_read_regOffset, readReg_resetWith p pending draws hr]
  · obtain ⟨hcapacity, _⟩ := constantAndReadOnlyRegisters (State.resetWith p pending draws) 0 hlegal
    exact hcapacity

end Sys2Proof.Machine
end

/-! # 30_encoding.md: the round trip -/

section
namespace Sys2Proof

/-- Settles O1: `decode_encode`, the decoder run on the three fields of the encoded word. -/
theorem decodeOfEncodeIsTheCommand : Obligations.DecodeOfEncodeIsTheCommand := by
  unfold Obligations.DecodeOfEncodeIsTheCommand
  intro i hwf
  exact decode_encode hwf

/-- Settles O2: the legal words are the encodings of the well-formed commands (`decode_eq_ok_iff`). -/
theorem decodedWordIsItsEncoding : Obligations.DecodedWordIsItsEncoding := by
  unfold Obligations.DecodedWordIsItsEncoding
  intro w i h
  exact (decode_eq_ok_iff w i).1 h

/-- Settles O5: the words are evaluated. -/
theorem sampleWordsDecode : Obligations.SampleWordsDecode := by
  unfold Obligations.SampleWordsDecode
  decide

end Sys2Proof
end

/-! # 10_state.md: the state invariant -/

/-! ### The results -/

section
namespace Sys2Proof.Machine

/-- The part of the invariant that speaks of what a completion writes: OUT, OUT_LEN, BITDEPTH and BPP
(10_state.md R34, R36). -/
structure State.ResultsLegal (s : State) : Prop where
  output : s.output.Legal s.params.capacity
  depth : legalDepth s.bitDepth s.bpp
  outLen : s.outLen.toNat ≤ s.params.capacity
  defined : ∀ a, a < s.outLen.toNat → s.output.read a ≠ none

theorem State.Inv.resultsLegal {s : State} (h : s.Inv) : s.ResultsLegal :=
  ⟨h.output, h.depth, h.outLen, h.defined⟩

/-- The header registers of a valid image hold one of the two legal depths. -/
theorem ValidImage.legalDepth {capacity : Nat} {sn : Snapshot} {h : Header} (v : ValidImage capacity sn h) :
    legalDepth (BitVec.ofNat 16 h.bitDepth) (BitVec.ofNat 3 (bytesPerPixel h)) := by
  rcases v.depth with hd | hd
  · exact .inr (.inl (by simp [bytesPerPixel, hd]))
  · exact .inr (.inr (by simp [bytesPerPixel, hd]))

/-- An image command leaves OUT_LEN bytes in OUT, each of them stored. -/
theorem imageState_resultsLegal (f : Channel) {h : Header} {s : State}
    (v : ValidImage s.params.capacity s.operands h) (hs : s.ResultsLegal) : (imageState f h s).ResultsLegal where
  output := hs.output.writeBytes 0 _ (by simpa [packedImage_length] using v.fits)
  depth := v.legalDepth
  outLen := v.fits
  defined a ha := by
    have hread : (imageState f h s).output.read a = some (packedByte f s.operands h a) :=
      storeImage_read f s.operands h s a ha
    simp [hread]

theorem exec_resultsLegal {i : Instr} {s t : State} (h : exec i s = .next t) (hs : s.ResultsLegal) :
    t.ResultsLegal := by
  rcases exec_cases i s with ⟨code, _, h'⟩ | ⟨n, _, _, _, _, h'⟩ | ⟨hd, _, v, h'⟩ | ⟨hd, f, _, v, h'⟩ <;>
    cases h'.symm.trans h
  · exact ⟨hs.output, hs.depth, hs.outLen, hs.defined⟩
  · exact ⟨hs.output, hs.depth, hs.outLen, hs.defined⟩
  · exact ⟨hs.output, v.legalDepth, hs.outLen, hs.defined⟩
  · exact imageState_resultsLegal f v hs

theorem completionStep_resultsLegal {w : Word} {s t : State} (h : completionStep w s = .next t)
    (hs : s.ResultsLegal) : t.ResultsLegal := by
  rcases completionStep_cases w s with ⟨_, _, h'⟩ | ⟨i, _, h'⟩
  · cases h'.symm.trans h
    exact ⟨hs.output, hs.depth, hs.outLen, hs.defined⟩
  · exact exec_resultsLegal (h'.symm.trans h) hs

end Sys2Proof.Machine
end

/-! ### What keeps the invariant -/

section
namespace Sys2Proof.Machine

theorem resetWith_inv {p : Config.Params} (hp : p.legal = true) (pending : List HostEvent) (draws : Nat) :
    (State.resetWith p pending draws).Inv where
  params := hp
  input := .empty _
  output := .empty _
  busy sn wait hs := by cases hs
  err he := by cases he
  depth := .inl ⟨rfl, rfl⟩
  outLen := Nat.zero_le _
  defined a ha := absurd ha (Nat.not_lt_zero a)

/-- On an IDLE block the clause on the running command says nothing. -/
theorem State.ResultsLegal.inv_of_idle {t : State} (h : t.ResultsLegal) (hidle : t.seq = .idle)
    (hparams : t.params.legal = true) (hinput : t.input.Legal t.params.capacity)
    (herr : t.err = true → t.errcode ≠ .none) : t.Inv where
  params := hparams
  input := hinput
  output := h.output
  busy sn wait hs := by rw [hidle] at hs; cases hs
  err := herr
  depth := h.depth
  outLen := h.outLen
  defined := h.defined

theorem completionStep_inv {w : Word} {s t : State} (h : completionStep w s = .next t) (hs : s.Inv) : t.Inv := by
  have hc := completionStep_completed h
  refine (completionStep_resultsLegal h hs.resultsLegal).inv_of_idle hc.seq ?_ ?_ ?_
  · rw [hc.params]; exact hs.params
  · rw [hc.input, hc.params]; exact hs.input
  · rw [hc.err]; exact of_decide_eq_true

/-- The bus answer, the pending events and the count of draws take no part in the invariant. -/
theorem State.Inv.model_fields {s : State} (h : s.Inv) (r : Response) (p : List HostEvent) (d : Nat) :
    State.Inv { s with response := r, pending := p, draws := d } :=
  ⟨h.params, h.input, h.output, h.busy, h.err, h.depth, h.outLen, h.defined⟩

theorem State.Inv.ie {s : State} (h : s.Inv) (b : Bool) : State.Inv { s with ie := b } :=
  ⟨h.params, h.input, h.output, h.busy, h.err, h.depth, h.outLen, h.defined⟩

theorem tick_inv {s : State} (h : s.Inv) : (tick s).Inv := by
  rcases hs : s.seq with _ | ⟨sn, _ | n⟩
  · rwa [tick_of_idle s hs]
  · rwa [show tick s = s by simp [tick, hs]]
  · rw [tick_of_busy s sn n hs]
    exact ⟨h.params, h.input, h.output, fun _ _ hb => by cases hb; exact h.busy sn _ hs, h.err, h.depth, h.outLen,
      h.defined⟩

/-- The snapshot a start takes is live, and a start clears DONE and ERR (10_state.md R24). -/
theorem startCommand_inv {s : State} (h : s.Inv) : (startCommand s).Inv :=
  ⟨h.params, h.input, h.output, fun _ _ hb => by cases hb; exact ⟨⟨rfl, rfl, rfl, rfl⟩, rfl, rfl⟩,
    fun he => (by cases he), h.depth, h.outLen, h.defined⟩

theorem writeCtrl_inv (v : Word) {s : State} (h : s.Inv) : (writeCtrl v s).Inv := by
  rcases writeCtrl_cases v s with ⟨_, _, hw⟩ | ⟨_, hw⟩ <;> rw [hw]
  · exact startCommand_inv (h.ie _)
  · exact h.ie _

theorem clearStatus_inv (v : Word) {s : State} (h : s.Inv) : (clearStatus v s).Inv := by
  refine ⟨h.params, h.input, h.output, fun sn wait hs => ?_, fun he => ?_, h.depth, h.outLen, h.defined⟩
  · obtain ⟨hlive, hdone, herr⟩ := h.busy sn wait hs
    exact ⟨hlive, by simp [hdone], by simp [herr]⟩
  · exact h.err (Bool.and_elim_left he)

/-- The operand registers and IN are written on an IDLE block alone. -/
theorem AccessEffect.inv {s t : State} {a : Access} (h : AccessEffect s a t) (hs : s.Inv) : t.Inv := by
  have hr := hs.resultsLegal
  cases h with
  | answered a r d => exact hs.model_fields r s.pending d
  | ctrl v => exact (writeCtrl_inv v hs).model_fields _ _ _
  | status off v => exact (clearStatus_inv v hs).model_fields _ _ _
  | cmd off v idle | arg off v idle | inLen off v idle =>
    exact State.ResultsLegal.inv_of_idle ⟨hr.output, hr.depth, hr.outLen, hr.defined⟩ idle hs.params hs.input hs.err
  | input width off v bytes idle inside =>
    exact State.ResultsLegal.inv_of_idle ⟨hr.output, hr.depth, hr.outLen, hr.defined⟩ idle hs.params
      (hs.input.writeBytes off bytes inside) hs.err

theorem HostEffect.inv {s t : State} {e : HostEvent} (h : HostEffect s e t) (hs : s.Inv) : t.Inv := by
  cases h with
  | access a u pending h _ => exact (h.inv hs).model_fields u.response pending u.draws
  | reset pending _ => exact resetWith_inv hs.params pending s.draws

/-- Settles O13: a step is a reset, a completion, time passing or a host event, and each keeps the invariant. -/
theorem stepKeepsTheInvariant : Obligations.StepKeepsTheInvariant := by
  unfold Obligations.StepKeepsTheInvariant
  intro s t hs ht
  rcases step_cases s with ⟨rest, _, h⟩ | ⟨_, ⟨sn, _, h⟩ | ⟨_, ⟨_, h⟩ | ⟨e, rest, _, _, h⟩⟩⟩
  · cases h.symm.trans ht
    exact resetWith_inv hs.params rest s.draws
  · exact completionStep_inv (h.symm.trans ht) hs
  · cases h.symm.trans ht
    exact tick_inv hs
  · cases h.symm.trans ht
    exact (hostEvent_effect e rest (tick s)).inv (tick_inv hs)

/-- Settles O14: the parameters of the state after reset are legal (`params_legal`). -/
theorem resetMeetsTheInvariant : Obligations.ResetMeetsTheInvariant := by
  unfold Obligations.ResetMeetsTheInvariant
  exact resetWith_inv params_legal [] 0

end Sys2Proof.Machine
end

/-! # The turns of the block and its host -/

/-! ### A step that is no completion -/

section
namespace Sys2Proof.Machine

/-- With no event pending and no completion due, time passes. -/
theorem step_of_no_event {s : State} (hdue : ∀ sn, s.seq ≠ .busy sn 0) (hp : s.pending = []) :
    step s = .next (tick s) := by
  rcases step_cases s with ⟨_, hp', _⟩ | ⟨_, ⟨sn, hs, _⟩ | ⟨_, ⟨_, h⟩ | ⟨_, _, hp', _, _⟩⟩⟩
  · simp [hp] at hp'
  · exact absurd hs (hdue sn)
  · exact h
  · simp [hp] at hp'

/-- With no completion due, an event that is no reset takes effect while time passes. -/
theorem step_of_event {s : State} {e : HostEvent} {rest : List HostEvent} (hdue : ∀ sn, s.seq ≠ .busy sn 0)
    (hp : s.pending = e :: rest) (he : e.noReset = true) : step s = .next (hostEvent e rest (tick s)) := by
  rcases step_cases s with ⟨_, hp', _⟩ | ⟨_, ⟨sn, hs, _⟩ | ⟨_, ⟨hp', _⟩ | ⟨_, _, hp', _, h⟩⟩⟩
  · cases hp.symm.trans hp'
    simp [HostEvent.noReset] at he
  · exact absurd hs (hdue sn)
  · simp [hp] at hp'
  · cases hp.symm.trans hp'
    exact h

theorem statusWord_tick (s : State) : statusWord (tick s) = statusWord s := by
  simp only [statusWord, tick_err, tick_done, tick_isBusy]

theorem irq_tick (s : State) : irq (tick s) = irq s := by
  simp only [irq, tick_ie, tick_done]

theorem hostEvent_poll (rest : List HostEvent) (s : State) : hostEvent .poll rest s =
    { s with pending := if s.isBusy then .poll :: rest else rest, response := .word (statusWord s) } :=
  answerAccess_of_ok (hostAccess_read_regOffset .status _)

/-- Where no completion is due, `tick` is the passing of one waiting step, if there is one. -/
theorem tick_eq_of_turn {s u : State} (h : (s.seq = .idle ∧ u = s) ∨
      ∃ (sn : Snapshot) (wait : Nat), s.seq = .busy sn (wait + 1) ∧ u = { s with seq := .busy sn wait }) :
    tick s = u ∧ ∀ sn, s.seq ≠ .busy sn 0 := by
  rcases h with ⟨hs, rfl⟩ | ⟨sn, wait, hs, rfl⟩
  · exact ⟨tick_of_idle u hs, by simp [hs]⟩
  · exact ⟨tick_of_busy s sn wait hs, by simp [hs]⟩

/-- Settles O8: the step is the event's effect on the state `tick` leaves (`step_of_event`). -/
theorem stepTakesTheHostsTurn : Obligations.StepTakesTheHostsTurn := by
  unfold Obligations.StepTakesTheHostsTurn
  intro s u hturn
  obtain ⟨rfl, hdue⟩ := tick_eq_of_turn hturn
  refine ⟨step_of_no_event hdue, fun rest => ⟨fun a hp => ?_, fun width addr v hp => ?_, fun hp => ?_, fun hp => ?_⟩⟩
  · exact step_of_event hdue hp rfl
  · exact step_of_event hdue hp rfl
  · rw [step_of_event hdue hp rfl, hostEvent_poll, statusWord_tick, tick_isBusy]
  · rw [step_of_event hdue hp rfl, hostEvent, irq_tick]

end Sys2Proof.Machine
end

/-! ### A step that is a completion -/

section
namespace Sys2Proof.Machine

theorem completionStep_of_decode_ok {w : Word} {i : Instr} (h : decode w = .ok i) (s : State) :
    completionStep w s = exec i s := by
  simp only [completionStep, h]

/-- Settles O6: the completion that is due runs the decoded command. -/
theorem stepRunsTheDecodedCommand : Obligations.StepRunsTheDecodedCommand := by
  unfold Obligations.StepRunsTheDecodedCommand
  intro s sn i hs hr hi
  rw [step_of_due hs hr, completionStep_of_decode_ok hi]

theorem noResetNext_of_dropResets {s : State} {events : List HostEvent} (h : s.pending = dropResets events) :
    s.noResetNext = true := by
  induction events with
  | nil => simp [State.noResetNext, h, dropResets]
  | cons e events ih =>
    cases e with
    | reset => exact ih h
    | _ => simp [State.noResetNext, h, dropResets, HostEvent.noReset]

theorem decode_of_decodeTableWord {nbits w : Nat} {i : Instr} (h : decodeTableWord nbits w = some i) :
    decode (tableWord nbits w) = .ok i := by
  unfold decodeTableWord at h
  split_ifs at h
  cases hd : decode (tableWord nbits w) with
  | error e => simp [hd, Except.toOption] at h
  | ok j => simpa [hd, Except.toOption] using h

/-- The placed word's snapshot holds it, and its completion is due (log entry 11). -/
theorem withFetchWord_seq (s : State) (nbits w : Nat) :
    (s.withFetchWord nbits w).seq = .busy ⟨tableWord nbits w, s.arg, s.inLen, s.input, s.draws⟩ 0 := rfl

/-- Settles O7: no reset stands before the placed word, whose completion is due. -/
theorem placedWordRunsNext : Obligations.PlacedWordRunsNext := by
  unfold Obligations.PlacedWordRunsNext
  intro s nbits w i hi
  have hr : (s.withFetchWord nbits w).noResetNext = true := noResetNext_of_dropResets (events := s.pending) rfl
  exact ⟨stepRunsTheDecodedCommand _ _ i (withFetchWord_seq s nbits w) hr (decode_of_decodeTableWord hi), rfl, rfl,
    rfl⟩

/-- Settles O18: `exec_completed`, and that every command completes. -/
theorem completionFrame : Obligations.CompletionFrame := by
  unfold Obligations.CompletionFrame
  intro i s
  obtain ⟨t, ht⟩ := exec_next i s
  obtain ⟨hseq, hdone, herr, hparams, hie, hcmd, harg, hinLen, hinput, hresponse, hpending, hdraws⟩ :=
    exec_completed ht
  exact ⟨t, ht, hseq, hdone, herr, hparams, hie, hcmd, harg, hinLen, hinput, hresponse, hpending, hdraws⟩

end Sys2Proof.Machine
end

/-! ### Runs -/

section
namespace Sys2Proof.Machine

theorem stepsTo_succ {s t u : State} {n : Nat} (h : step s = .next t) (hn : stepsTo n t u) : stepsTo (n + 1) s u := by
  have hstep : core.step s = .next t := h
  simp only [stepsTo, Host.Core.run, hstep]
  exact hn

/-- Settles O9: `step_next`, along the run. -/
theorem everyRunGoesOn : Obligations.EveryRunGoesOn := by
  unfold Obligations.EveryRunGoesOn
  intro n
  induction n with
  | zero => exact fun s => ⟨s, rfl⟩
  | succ n ih =>
    intro s
    obtain ⟨t, ht⟩ := step_next s
    obtain ⟨u, hu⟩ := ih t
    exact ⟨u, stepsTo_succ ht hu⟩

/-- A running command keeps its snapshot and its wait through every event but a reset. -/
theorem HostEffect.busy {s t : State} {e : HostEvent} {sn : Snapshot} {n : Nat} (h : HostEffect s e t)
    (he : e.noReset = true) (hs : s.seq = .busy sn n) : t.seq = .busy sn n := by
  cases h with
  | access a u pending h _ => exact (h.busy hs).1
  | reset pending hreset => subst hreset; cases he

/-- While a command waits and the host does not reset the block, each step takes one off the wait. -/
theorem step_of_waiting {s : State} {sn : Snapshot} {n : Nat} (hs : s.seq = .busy sn (n + 1))
    (hr : s.noResetPending = true) :
    ∃ t, step s = .next t ∧ t.seq = .busy sn n ∧ t.noResetPending = true := by
  have hdue : ∀ sn', s.seq ≠ .busy sn' 0 := by simp [hs]
  have htick : (tick s).seq = .busy sn n := by rw [tick_of_busy s sn n hs]
  cases hp : s.pending with
  | nil => exact ⟨_, step_of_no_event hdue hp, htick, by simp [State.noResetPending, hp]⟩
  | cons e rest =>
    obtain ⟨he, hrest⟩ : e.noReset = true ∧ rest.all HostEvent.noReset = true := by
      simpa [State.noResetPending, hp] using hr
    refine ⟨_, step_of_event hdue hp he, (hostEvent_effect e rest (tick s)).busy he htick, ?_⟩
    rcases hostEvent_pending e rest (tick s) he with h | h
    · rwa [State.noResetPending, h]
    · rw [State.noResetPending, h, List.all_cons, he, hrest, Bool.and_true]

theorem stepsTo_due (n : Nat) {s : State} {sn : Snapshot} (hs : s.seq = .busy sn n) (hr : s.noResetPending = true) :
    ∃ u, stepsTo n s u ∧ u.seq = .busy sn 0 ∧ u.noResetPending = true := by
  induction n generalizing s with
  | zero => exact ⟨s, rfl, hs, hr⟩
  | succ n ih =>
    obtain ⟨t, ht, hseq, hrt⟩ := step_of_waiting hs hr
    obtain ⟨u, hu, hdue, hru⟩ := ih hseq hrt
    exact ⟨u, stepsTo_succ ht hu, hdue, hru⟩

theorem noResetNext_of_noResetPending {s : State} (h : s.noResetPending = true) : s.noResetNext = true := by
  unfold State.noResetNext
  split
  next => rfl
  next e rest hp =>
    rw [State.noResetPending, hp, List.all_cons] at h
    exact Bool.and_elim_left h

/-- Settles O10: `stepsTo_due` for the wait, then the completion that is due. -/
theorem everyStartedCommandCompletes : Obligations.EveryStartedCommandCompletes := by
  unfold Obligations.EveryStartedCommandCompletes
  intro s sn wait hs hr
  obtain ⟨u, hu, hdue, hru⟩ := stepsTo_due wait hs hr
  have hstep : step u = completionStep sn.cmd u := step_of_due hdue (noResetNext_of_noResetPending hru)
  obtain ⟨t, ht⟩ := completionStep_next sn.cmd u
  have hc := completionStep_completed ht
  exact ⟨u, t, hu, hdue, hstep, hstep.trans ht, hc.seq, hc.done⟩

end Sys2Proof.Machine
end

/-! ### What a step changes -/

section
namespace Sys2Proof.Machine

/-- Of the accesses only the start write makes an IDLE block BUSY (10_state.md R21). -/
theorem AccessEffect.start_of_busy {s t : State} {a : Access} (h : AccessEffect s a t) (hs : s.isBusy = false)
    (ht : t.isBusy = true) : ∃ v : Word, a = .write .reg .w32 0 v ∧ v.getLsbD 0 = true := by
  have hidle := (isBusy_eq_false s).1 hs
  obtain ⟨sn, n, htseq⟩ := (isBusy_eq_true t).1 ht
  cases h with
  | ctrl v =>
    rcases writeCtrl_cases v s with ⟨hv, _, _⟩ | ⟨_, hw⟩
    · exact ⟨v, rfl, hv⟩
    · simp [hw, hidle] at htseq
  | _ => simp [hidle] at htseq

/-- The event that starts a command is a CTRL write with START = 1, by offset or by bus address. -/
theorem HostEffect.start_of_busy {s t : State} {e : HostEvent} (h : HostEffect s e t) (hs : s.isBusy = false)
    (ht : t.isBusy = true) : ∃ v : Word, v.getLsbD 0 = true ∧
      (e = .access (.write .reg .w32 0 v) ∨
        ∃ (width : Width) (addr : Nat), e = .bus width addr (some v) ∧ locate s.params addr = some (.reg, 0)) := by
  cases h with
  | access a u pending h he =>
    obtain ⟨v, rfl, hv⟩ := h.start_of_busy hs ht
    rcases he with he | ⟨width, addr, v', space, off, he, hl, ha⟩ | ⟨_, _, _, ha⟩
    · exact ⟨v, hv, .inl he⟩
    · cases ha
      exact ⟨v, hv, .inr ⟨_, addr, he, hl⟩⟩
    · cases ha
  | reset pending _ => cases ht

/-- Settles O11: the cases of a step, each with the phase it leaves. -/
theorem phaseTransitions : Obligations.PhaseTransitions := by
  unfold Obligations.PhaseTransitions
  intro s t ht
  rcases step_cases s with ⟨rest, hp, h⟩ | ⟨_, ⟨sn, hs, h⟩ | ⟨_, ⟨_, h⟩ | ⟨e, rest, hp, he, h⟩⟩⟩
  · cases h.symm.trans ht
    exact ⟨fun _ hb => (by cases hb), fun _ _ => .inl (by simp [State.noResetNext, hp, HostEvent.noReset])⟩
  · have hbusy : s.isBusy = true := (isBusy_eq_true s).2 ⟨sn, 0, hs⟩
    exact ⟨fun hidle => absurd hbusy (by simp [hidle]), fun _ _ => .inr ⟨sn, hs, h⟩⟩
  · cases h.symm.trans ht
    rw [tick_isBusy]
    exact ⟨fun hidle hb => absurd hb (by simp [hidle]), fun hb hidle => absurd hb (by simp [hidle])⟩
  · cases h.symm.trans ht
    have heffect := hostEvent_effect e rest (tick s)
    refine ⟨fun hidle hb => ?_, fun hb hidle => ?_⟩
    · obtain ⟨v, hv, hevent⟩ := heffect.start_of_busy (by rwa [tick_isBusy]) hb
      rw [tick_params] at hevent
      exact ⟨e, rest, v, hp, hv, hevent⟩
    · obtain ⟨sn, n, hs⟩ := (isBusy_eq_true (tick s)).1 (by rwa [tick_isBusy])
      have hb' := (isBusy_eq_true _).2 ⟨sn, n, heffect.busy he hs⟩
      exact absurd hb' (by simp [hidle])

/-- Settles O12: neither time passing nor an access changes a result (`AccessEffect.frame`). -/
theorem resultsChangeOnlyAtCompletionOrReset : Obligations.ResultsChangeOnlyAtCompletionOrReset := by
  unfold Obligations.ResultsChangeOnlyAtCompletionOrReset
  intro s t ht hr hdue
  cases hp : s.pending with
  | nil =>
    cases (step_of_no_event hdue hp).symm.trans ht
    simp
  | cons e rest =>
    have he : e.noReset = true := by simpa [State.noResetNext, hp] using hr
    cases (step_of_event hdue hp he).symm.trans ht
    generalize hostEvent e rest (tick s) = t, hostEvent_effect e rest (tick s) = heffect
    cases heffect with
    | access a u pending h _ =>
      obtain ⟨_, _, hframe⟩ := h.frame
      simpa using hframe
    | reset pending hreset => subst hreset; cases he

/-- Settles O60: the reset goes first, and an empty buffer reads as free values alone. -/
theorem resetAbandonsTheRunningCommand : Obligations.ResetAbandonsTheRunningCommand := by
  unfold Obligations.ResetAbandonsTheRunningCommand
  intro s rest hp
  have h : step s = .next (takeReset { s with pending := rest }) := by simp only [step, advance, hp]
  exact ⟨_, h, rfl, rfl, rfl, fun a => ⟨rfl, rfl⟩⟩

end Sys2Proof.Machine
end

/-! # 40_extract_and_codec.md: READ_LE, PARSE and the packed output -/

section
namespace Sys2Proof.Machine

/-- Settles O20: the branches of `execReadLe` in their order, the value as the sum `le_eq_sum` gives. -/
theorem readLeExtractsTheInteger : Obligations.ReadLeExtractsTheInteger := by
  unfold Obligations.ReadLeExtractsTheInteger
  intro n s sn
  have hlegal (h1 : 1 ≤ n) (h4 : n ≤ 4) : legalCount n = true := (legalCount_iff n).2 ⟨h1, h4⟩
  refine ⟨fun h1 h4 => by interval_cases n <;> decide, fun hn => ?_, fun h1 h4 hlong => ?_, fun h1 h4 hfits hout => ?_,
    fun h1 h4 hfits hin => ?_⟩
  · have hillegal : legalCount n = false := by rwa [← Bool.not_eq_true, legalCount_iff]
    exact if_pos hillegal
  · exact (if_neg (by simp [hlegal h1 h4])).trans (if_pos hlong)
  · exact (if_neg (by simp [hlegal h1 h4])).trans ((if_neg hfits.not_gt).trans (if_pos hout))
  · have hexec : exec (.readLe n) s = .next (readLeState n s) :=
      (if_neg (by simp [hlegal h1 h4])).trans ((if_neg hfits.not_gt).trans (if_neg hin.not_gt))
    rw [hexec, readLeState, le_eq_sum]
    rfl

theorem execParse_of_valid {s : State} {h : Header} (v : ValidImage s.params.capacity s.operands h) :
    execParse s = .next (complete .none (commitHeader h s)) := by
  simp only [execParse, (checkImage_ok_iff _ _ _).2 v]

/-- Settles O23: the header registers are `commitHeader`'s. -/
theorem parseWritesTheHeaderRegisters : Obligations.ParseWritesTheHeaderRegisters := by
  unfold Obligations.ParseWritesTheHeaderRegisters
  intro s h v
  exact execParse_of_valid v

/-- Settles O24: both report the image checks, in the same order, of the same snapshot. -/
theorem parseAgreesWithEveryImageCommand : Obligations.ParseAgreesWithEveryImageCommand := by
  unfold Obligations.ParseAgreesWithEveryImageCommand
  intro i s hi
  obtain ⟨f, hf⟩ := exec_image hi
  obtain ⟨t, ht, htcode⟩ := execParse_reports s
  obtain ⟨u, hu, hucode⟩ := imageCommand_reports f s
  refine ⟨t, u, ht, (hf s).trans hu, htcode.trans hucode.symm, ?_⟩
  rw [htcode, ← checkedCode_checkImage]
  cases hc : checkImage s.params.capacity s.operands with
  | error code =>
    refine iff_of_false (checkImage_error hc).1 ?_
    rintro ⟨h, v⟩
    simp [(checkImage_ok_iff _ _ _).2 v] at hc
  | ok h => exact iff_of_true rfl ⟨h, (checkImage_ok_iff _ _ _).1 hc⟩

/-- Settles O25: the bytes of `packedByte` outside the grid, and the next state written out. -/
theorem imageCommandsPackTheOutput : Obligations.ImageCommandsPackTheOutput := by
  unfold Obligations.ImageCommandsPackTheOutput
  intro i s h hi v
  obtain ⟨f, hf⟩ := exec_image hi
  have hread {a : Nat} (ha : a < s.operands.inLen.toNat) :
      (imageState f h s).output.read a = some (packedByte f s.operands h a) := storeImage_read f s.operands h s a ha
  refine ⟨imageState f h s, (hf s).trans (imageCommand_of_valid f s h v), fun a ha => ?_, fun a hgrid ha => ?_,
    fun a ha => storeImage_read_above f s.operands h s a ha, rfl⟩
  · rw [hread (ha.trans_le v.offset.2), packedByte_header f s.operands h a ha]
  · rw [hread ha, packedByte_trailing f s.operands h a hgrid]

/-- Settles O26: the header's thirty bytes lie below the data offset, where OUT is IN (O25). -/
theorem outputKeepsTheDimensions : Obligations.OutputKeepsTheDimensions := by
  unfold Obligations.OutputKeepsTheDimensions
  intro i s t h sn hi v ht hholds
  obtain ⟨hlen, hbytes⟩ := hholds
  obtain ⟨t', ht', hheader, -, -, heq⟩ := imageCommandsPackTheOutput i s h hi v
  cases ht'.symm.trans ht
  have houtLen : t.outLen = s.operands.inLen := by rw [heq]
  refine v.congr (hlen.trans houtLen) fun a ha => ?_
  have hoff : a < h.dataOffset := ha.trans_le v.offset.1
  have hout : a < t.outLen.toNat := houtLen ▸ hoff.trans_le v.offset.2
  exact Option.some.inj ((hbytes a hout).symm.trans (hheader a hoff))

end Sys2Proof.Machine
end

/-! # The pixels of the output -/

/-! ### What OUT holds at a pixel's channel -/

section
namespace Sys2Proof.Machine

/-- The grid of a valid image lies below the length (40_extract_and_codec.md R107, V5). -/
theorem ValidImage.grid_le {capacity : Nat} {sn : Snapshot} {h : Header} (v : ValidImage capacity sn h) :
    h.dataOffset + gridBytes h ≤ sn.inLen.toNat := by
  have hbody : gridBytes h ≤ sn.inLen.toNat - h.dataOffset := v.body
  have := v.offset
  omega

/-- On a valid image the frame completes, and OUT holds the rule's value for each channel of each pixel. -/
theorem imageCommand_pixels (f : Channel) {s : State} {h : Header} (v : ValidImage s.params.capacity s.operands h) :
    ∃ t, imageCommand f s = .next t ∧ t.errcode = .none ∧
      ∀ r c ch, r < h.height → c < h.width → ch < bytesPerPixel h →
        t.output.read (pixelOffset h r c ch) = some (BitVec.ofNat 8 (f s.operands h r c ch)) := by
  refine ⟨_, imageCommand_of_valid f s h v, rfl, fun r c ch hr hc hch => ?_⟩
  have hread := storeImage_read f s.operands h s _ ((pixelOffset_lt hr hc hch).trans_le v.grid_le)
  rwa [packedByte_pixel f s.operands h hr hc hch] at hread

theorem ValidImage.three_le_bytesPerPixel {capacity : Nat} {sn : Snapshot} {h : Header}
    (v : ValidImage capacity sn h) : 3 ≤ bytesPerPixel h := by
  rcases v.bytesPerPixel_eq with hp | hp <;> omega

theorem keepAlpha_color (f : Channel) (sn : Snapshot) (h : Header) (r c : Nat) {ch : Nat} (hch : ch < 3) :
    keepAlpha f sn h r c ch = f sn h r c ch :=
  if_neg hch.ne

/-- With the alpha default the three colours follow the rule, and an alpha byte passes through
(40_extract_and_codec.md R115). -/
theorem keepAlpha_pixels (f : Channel) {s : State} {h : Header} (v : ValidImage s.params.capacity s.operands h) :
    ∃ t, imageCommand (keepAlpha f) s = .next t ∧ t.errcode = .none ∧
      ∀ r c, r < h.height → c < h.width →
        (∀ ch, ch < 3 →
          t.output.read (pixelOffset h r c ch) = some (BitVec.ofNat 8 (f s.operands h r c ch))) ∧
        (h.bitDepth = 32 →
          t.output.read (pixelOffset h r c 3) = some (s.operands.byte (pixelOffset h r c 3))) := by
  obtain ⟨t, ht, hcode, hpixel⟩ := imageCommand_pixels (keepAlpha f) v
  refine ⟨t, ht, hcode, fun r c hr hc => ⟨fun ch hch => ?_, fun hdepth => ?_⟩⟩
  · rw [hpixel r c ch hr hc (hch.trans_le v.three_le_bytesPerPixel), keepAlpha_color f _ _ _ _ hch]
  · rw [hpixel r c 3 hr hc (by simp [bytesPerPixel, hdepth]), keepAlpha_alpha, ofNat_px]

end Sys2Proof.Machine
end

/-! ### The point operations -/

section
namespace Sys2Proof.Machine

/-- Settles O27: `greyscaleChannel` is the rounded average. -/
theorem greyscaleAveragesThePixel : Obligations.GreyscaleAveragesThePixel := by
  unfold Obligations.GreyscaleAveragesThePixel
  intro s h v
  obtain ⟨t, ht, hcode, hpixel⟩ := keepAlpha_pixels greyscaleChannel v
  refine ⟨t, ht, hcode, fun r c hr hc => ?_⟩
  obtain ⟨hcolor, halpha⟩ := hpixel r c hr hc
  exact ⟨hcolor, fun hdepth => (halpha hdepth).trans (congrArg some (ofNat_px s.operands h r c 3).symm)⟩

/-- Settles O28: `sepiaChannel` is the clamped sum of its channel. -/
theorem sepiaWeighsThePixel : Obligations.SepiaWeighsThePixel := by
  unfold Obligations.SepiaWeighsThePixel
  intro s h v
  obtain ⟨t, ht, hcode, hpixel⟩ := keepAlpha_pixels sepiaChannel v
  refine ⟨t, ht, hcode, fun r c hr hc => ?_⟩
  obtain ⟨hcolor, halpha⟩ := hpixel r c hr hc
  exact ⟨hcolor 2 (by decide), hcolor 1 (by decide), hcolor 0 (by decide),
    fun hdepth => (halpha hdepth).trans (congrArg some (ofNat_px s.operands h r c 3).symm)⟩

/-- The complement of a byte is 255 minus it (41_point_ops.md R134). -/
theorem ofNat_sub_toNat_eq_not (b : Byte) : BitVec.ofNat 8 (255 - b.toNat) = ~~~b := by
  apply BitVec.eq_of_toNat_eq
  rw [BitVec.toNat_ofNat, BitVec.toNat_not]
  omega

/-- Settles O29: `invertChannel` is 255 minus the value, which is the complement. -/
theorem invertComplementsThePixel : Obligations.InvertComplementsThePixel := by
  unfold Obligations.InvertComplementsThePixel
  intro s h v
  obtain ⟨t, ht, hcode, hpixel⟩ := keepAlpha_pixels invertChannel v
  refine ⟨t, ht, hcode, fun r c hr hc => ?_⟩
  obtain ⟨hcolor, halpha⟩ := hpixel r c hr hc
  exact ⟨fun ch hch => ⟨(hcolor ch hch).trans (congrArg some (ofNat_sub_toNat_eq_not _)), hcolor ch hch⟩, halpha⟩

/-- Settles O30: `reflectChannel` is the mirrored pixel's channel, alpha as well. -/
theorem reflectMirrorsTheRows : Obligations.ReflectMirrorsTheRows := by
  unfold Obligations.ReflectMirrorsTheRows
  intro s h v
  obtain ⟨t, ht, hcode, hpixel⟩ := imageCommand_pixels reflectChannel v
  refine ⟨t, ht, hcode, fun r c ch hr hc hch => ?_⟩
  rw [hpixel r c ch hr hc hch, reflectChannel, ofNat_px]

end Sys2Proof.Machine
end

/-! ### Commands that undo themselves -/

section
namespace Sys2Proof.Machine

/-- The rule, run on a snapshot whose pixels are its own output, gives the first pixels back. -/
def Channel.UndoesItself (f : Channel) : Prop :=
  ∀ (sn sn' : Snapshot) (h : Header),
    (∀ r c ch, r < h.height → c < h.width → ch < bytesPerPixel h →
      sn'.byte (pixelOffset h r c ch) = BitVec.ofNat 8 (f sn h r c ch)) →
    ∀ r c ch, r < h.height → c < h.width → ch < bytesPerPixel h → f sn' h r c ch = px sn h r c ch

theorem keepAlpha_invert_undoesItself : (keepAlpha invertChannel).UndoesItself := by
  intro sn sn' h hpixel r c ch hr hc hch
  have hpx : px sn' h r c ch = (BitVec.ofNat 8 (keepAlpha invertChannel sn h r c ch)).toNat := by
    rw [px, hpixel r c ch hr hc hch]
  have hle := px_le sn h r c ch
  rw [BitVec.toNat_ofNat] at hpx
  by_cases h3 : ch = 3
  · subst h3
    rw [keepAlpha_alpha] at hpx ⊢
    omega
  · simp only [keepAlpha, if_neg h3, invertChannel] at hpx ⊢
    omega

theorem reflect_undoesItself : Channel.UndoesItself reflectChannel := by
  intro sn sn' h hpixel r c ch hr hc hch
  have hmirror : h.width - 1 - (h.width - 1 - c) = c := by omega
  rw [reflectChannel, px, hpixel r (h.width - 1 - c) ch hr (by omega) hch, reflectChannel, hmirror, ofNat_px]
  rfl

/-- The second output is the first input: outside the grid both runs copy, inside it the rule undoes itself. -/
theorem packedByte_packedByte {f : Channel} (hf : f.UndoesItself) {capacity : Nat} {sn sn' : Snapshot} {h : Header}
    (v : ValidImage capacity sn h) (hbytes : ∀ a, a < sn.inLen.toNat → sn'.byte a = packedByte f sn h a) {a : Nat}
    (ha : a < sn.inLen.toNat) : packedByte f sn' h a = sn.byte a := by
  have hp : 0 < bytesPerPixel h := by have := v.three_le_bytesPerPixel; omega
  rcases offset_cases h a v.grid.1 hp with hheader | ⟨r, c, ch, hr, hc, hch, rfl⟩ | htrailing
  · rw [packedByte_header f sn' h a hheader, hbytes a ha, packedByte_header f sn h a hheader]
  · rw [packedByte_pixel f sn' h hr hc hch, hf sn sn' h ?_ r c ch hr hc hch, ofNat_px]
    intro r c ch hr hc hch
    rw [hbytes _ ((pixelOffset_lt hr hc hch).trans_le v.grid_le), packedByte_pixel f sn h hr hc hch]
  · rw [packedByte_trailing f sn' h a htrailing, hbytes a ha, packedByte_trailing f sn h a htrailing]

theorem imageCommand_twice {i : Instr} {f : Channel} (hi : i ∈ imageCommands)
    (hexec : ∀ s, exec i s = imageCommand f s) (hf : f.UndoesItself) {s t u : State} {h : Header}
    (v : ValidImage s.params.capacity s.operands h) (ht : exec i s = .next t) (hu : u.operands.holdsOutputOf t)
    (hcap : u.params.capacity = s.params.capacity) :
    ∃ w, exec i u = .next w ∧ w.errcode = .none ∧
      ∀ a, a < s.operands.inLen.toNat → w.output.read a = some (s.operands.byte a) := by
  have v' : ValidImage u.params.capacity u.operands h := by
    rw [hcap]; exact outputKeepsTheDimensions i s t h u.operands hi v ht hu
  obtain ⟨hlen, hbytes⟩ := hu
  rw [hexec, imageCommand_of_valid f s h v] at ht
  cases ht
  refine ⟨_, (hexec u).trans (imageCommand_of_valid f u h v'), rfl, fun a ha => ?_⟩
  have hlen' : u.operands.inLen = s.operands.inLen := hlen
  have hsecond := storeImage_read f u.operands h u a (by rwa [hlen'])
  refine hsecond.trans (congrArg some (packedByte_packedByte hf v (fun b hb => ?_) ha))
  exact Option.some.inj ((hbytes b hb).symm.trans (storeImage_read f s.operands h s b hb))

/-- Settles O34: `keepAlpha_invert_undoesItself`. -/
theorem invertTwiceGivesTheImageBack : Obligations.InvertTwiceGivesTheImageBack := by
  unfold Obligations.InvertTwiceGivesTheImageBack
  intro s t u h v ht hu hcap
  exact imageCommand_twice (by decide) (fun _ => rfl) keepAlpha_invert_undoesItself v ht hu hcap

/-- Settles O35: `reflect_undoesItself`. -/
theorem reflectTwiceGivesTheImageBack : Obligations.ReflectTwiceGivesTheImageBack := by
  unfold Obligations.ReflectTwiceGivesTheImageBack
  intro s t u h v ht hu hcap
  exact imageCommand_twice (by decide) (fun _ => rfl) reflect_undoesItself v ht hu hcap

end Sys2Proof.Machine
end

/-! # 42_neighborhood_ops.md: BLUR and EDGE -/

/-! ### BLUR's window -/

section
namespace Sys2Proof.Machine

theorem sumFrom_eq_sum (f : Nat → Nat) (lo n : Nat) : sumFrom f lo n = ∑ i ∈ Finset.Ico lo (lo + n), f i := by
  induction n with
  | zero => simp [sumFrom]
  | succ n ih => rw [sumFrom, ih, ← Nat.add_assoc, Finset.sum_Ico_succ_top (Nat.le_add_right lo n)]

/-- The window's positions are those of the image within `k` (42_neighborhood_ops.md R151). -/
theorem mem_window_iff {x k size i : Nat} (hx : x < size) :
    (windowLo x k ≤ i ∧ i < windowLo x k + windowLen x k size) ↔ (x ≤ i + k ∧ i ≤ x + k ∧ i < size) := by
  unfold windowLen windowLo
  omega

theorem one_le_windowLen (x k size : Nat) : 1 ≤ windowLen x k size := by
  unfold windowLen
  omega

theorem windowLen_le (x k size : Nat) : windowLen x k size ≤ 2 * k + 1 := by
  unfold windowLen windowLo
  omega

theorem one_le_windowCount (h : Header) (k r c : Nat) : 1 ≤ windowCount h k r c :=
  Nat.mul_pos (one_le_windowLen r k h.height) (one_le_windowLen c k h.width)

theorem windowCount_le (h : Header) (k r c : Nat) : windowCount h k r c ≤ (2 * k + 1) ^ 2 := by
  rw [sq]
  exact Nat.mul_le_mul (windowLen_le r k h.height) (windowLen_le c k h.width)

theorem sumFrom_le {f : Nat → Nat} {b : Nat} (hf : ∀ i, f i ≤ b) (lo n : Nat) : sumFrom f lo n ≤ b * n := by
  induction n with
  | zero => exact le_rfl
  | succ n ih =>
    rw [sumFrom, Nat.mul_succ]
    exact Nat.add_le_add ih (hf _)

/-- The sum is at most 255 for each pixel of the window (42_neighborhood_ops.md R153). -/
theorem windowSum_le (k : Nat) (sn : Snapshot) (h : Header) (r c ch : Nat) :
    windowSum k sn h r c ch ≤ 255 * windowCount h k r c := by
  have hrow : ∀ i, sumFrom (fun j => px sn h i j ch) (windowLo c k) (windowLen c k h.width)
      ≤ 255 * windowLen c k h.width := fun i => sumFrom_le (fun j => px_le sn h i j ch) _ _
  calc windowSum k sn h r c ch ≤ 255 * windowLen c k h.width * windowLen r k h.height := sumFrom_le hrow _ _
    _ = 255 * windowCount h k r c := by unfold windowCount; ring

/-- Settles O39: `mem_window_iff` for the square, and its size and sum by the bounds of one row. -/
theorem blurWindowIsTheClippedSquare : Obligations.BlurWindowIsTheClippedSquare := by
  unfold Obligations.BlurWindowIsTheClippedSquare
  intro k sn h r c ch hk hr hc
  have hcount := windowCount_le h k r c
  have hsum := windowSum_le k sn h r c ch
  have h25 : (2 * k + 1) ^ 2 ≤ 5 ^ 2 := Nat.pow_le_pow_left (by omega) 2
  exact ⟨fun i => mem_window_iff hr, fun j => mem_window_iff hc, rfl, one_le_windowCount h k r c, hcount, by omega,
    hsum, by omega⟩

theorem window_eq_Icc {x k size : Nat} (hx : x < size) :
    Finset.Ico (windowLo x k) (windowLo x k + windowLen x k size) = Finset.Icc (x - k) (min (size - 1) (x + k)) := by
  ext i
  rw [Finset.mem_Ico, Finset.mem_Icc, mem_window_iff hx]
  omega

theorem card_Icc_window {x k size : Nat} (hx : x < size) :
    (Finset.Icc (x - k) (min (size - 1) (x + k))).card = windowLen x k size := by
  rw [← window_eq_Icc hx, Nat.card_Ico, Nat.add_sub_cancel_left]

/-- BLUR's colour as the average over the clipped square (42_neighborhood_ops.md R150). -/
theorem blurChannel_eq_average {k : Nat} {sn : Snapshot} {h : Header} {r c ch : Nat} (hr : r < h.height)
    (hc : c < h.width) : blurChannel k sn h r c ch =
      (∑ i ∈ Finset.Icc (r - k) (min (h.height - 1) (r + k)),
        ∑ j ∈ Finset.Icc (c - k) (min (h.width - 1) (c + k)), px sn h i j ch) /
      ((Finset.Icc (r - k) (min (h.height - 1) (r + k))).card *
        (Finset.Icc (c - k) (min (h.width - 1) (c + k))).card) := by
  rw [card_Icc_window hr, card_Icc_window hc, blurChannel, windowSum, windowCount]
  simp only [sumFrom_eq_sum, window_eq_Icc hr, window_eq_Icc hc]

/-- Settles O31: `blurChannel_eq_average` for a legal radius, the failure of `execBlur` for any other. -/
theorem blurAveragesTheClippedWindow : Obligations.BlurAveragesTheClippedWindow := by
  unfold Obligations.BlurAveragesTheClippedWindow
  refine ⟨fun k s hk => ?_, fun k s h hk v => ?_⟩
  · have hillegal : ¬legalRadius k = true := by rw [legalRadius_iff]; omega
    exact if_neg hillegal
  · obtain ⟨t, ht, hcode, hpixel⟩ := keepAlpha_pixels (blurChannel k) v
    refine ⟨t, (exec_blur_of_le_two hk s).trans ht, hcode, fun r c hr hc => ?_⟩
    obtain ⟨hcolor, halpha⟩ := hpixel r c hr hc
    exact ⟨fun ch hch => by rw [hcolor ch hch, blurChannel_eq_average hr hc], halpha⟩

end Sys2Proof.Machine
end

/-! ### EDGE's gradients -/

section
namespace Sys2Proof.Machine

/-- The double sum of a gradient, term by term in the order of the kernel's rows (42_neighborhood_ops.md R155). -/
theorem sobelGradient_eq_sum (kernel : List (List ℤ)) (sn : Snapshot) (h : Header) (r c ch : Nat) :
    sobelGradient kernel sn h r c ch =
      (kernelAt kernel 0 0 * edgeSample sn h (r - 1) (c - 1) ch + kernelAt kernel 0 1 * edgeSample sn h (r - 1) c ch
        + kernelAt kernel 0 2 * edgeSample sn h (r - 1) (c + 1) ch)
      + (kernelAt kernel 1 0 * edgeSample sn h r (c - 1) ch + kernelAt kernel 1 1 * edgeSample sn h r c ch
        + kernelAt kernel 1 2 * edgeSample sn h r (c + 1) ch)
      + (kernelAt kernel 2 0 * edgeSample sn h (r + 1) (c - 1) ch + kernelAt kernel 2 1 * edgeSample sn h (r + 1) c ch
        + kernelAt kernel 2 2 * edgeSample sn h (r + 1) (c + 1) ch) := by
  have hnext (x : ℤ) : x + 2 - 1 = x + 1 := by ring
  simp [sobelGradient, List.range_succ, hnext, add_assoc]

/-- The difference of the columns right and left of the centre (42_neighborhood_ops.md R155). -/
theorem sobelGradient_kernelX (sn : Snapshot) (h : Header) (r c ch : Nat) :
    sobelGradient kernelX sn h r c ch =
      (edgeSample sn h (r - 1) (c + 1) ch + 2 * edgeSample sn h r (c + 1) ch + edgeSample sn h (r + 1) (c + 1) ch)
      - (edgeSample sn h (r - 1) (c - 1) ch + 2 * edgeSample sn h r (c - 1) ch
        + edgeSample sn h (r + 1) (c - 1) ch) := by
  simp only [sobelGradient_eq_sum, kernelX, kernelAt, List.getD_cons_zero, List.getD_cons_succ]
  ring

/-- The difference of the rows below and above the centre (42_neighborhood_ops.md R155). -/
theorem sobelGradient_kernelY (sn : Snapshot) (h : Header) (r c ch : Nat) :
    sobelGradient kernelY sn h r c ch =
      (edgeSample sn h (r + 1) (c - 1) ch + 2 * edgeSample sn h (r + 1) c ch + edgeSample sn h (r + 1) (c + 1) ch)
      - (edgeSample sn h (r - 1) (c - 1) ch + 2 * edgeSample sn h (r - 1) c ch
        + edgeSample sn h (r - 1) (c + 1) ch) := by
  simp only [sobelGradient_eq_sum, kernelY, kernelAt, List.getD_cons_zero, List.getD_cons_succ]
  ring

/-- EDGE's colour as the clamped root of the sum of squares (42_neighborhood_ops.md R158). -/
theorem edgeChannel_eq_sqrt (sn : Snapshot) (h : Header) (r c ch : Nat) : edgeChannel sn h r c ch =
    min (Nat.sqrt (sobelGradient kernelX sn h r c ch ^ 2 + sobelGradient kernelY sn h r c ch ^ 2).toNat) 255 := by
  rw [edgeChannel, magnitude, clamp255, isqrt_eq_sqrt, sq, sq]

/-- Settles O32: the closed forms of the two gradients, over the model's samples. -/
theorem edgeTakesTheSobelMagnitude : Obligations.EdgeTakesTheSobelMagnitude := by
  unfold Obligations.EdgeTakesTheSobelMagnitude
  intro s h v
  obtain ⟨t, ht, hcode, hpixel⟩ := keepAlpha_pixels edgeChannel v
  refine ⟨t, ht, hcode, fun r c hr hc => ?_⟩
  obtain ⟨hcolor, halpha⟩ := hpixel r c hr hc
  refine ⟨fun ch hch => ?_, halpha⟩
  rw [hcolor ch hch, edgeChannel_eq_sqrt, sobelGradient_kernelX, sobelGradient_kernelY]
  rfl

theorem edgeSample_mem (sn : Snapshot) (h : Header) (i j : ℤ) (ch : Nat) :
    0 ≤ edgeSample sn h i j ch ∧ edgeSample sn h i j ch ≤ 255 := by
  have hpx := px_le sn h i.toNat j.toNat ch
  unfold edgeSample
  split_ifs <;> omega

theorem abs_edgeSample_sub_le (sn : Snapshot) (h : Header) (i j i' j' : ℤ) (ch : Nat) :
    |edgeSample sn h i j ch - edgeSample sn h i' j' ch| ≤ 255 := by
  obtain ⟨hlo, hhi⟩ := edgeSample_mem sn h i j ch
  obtain ⟨hlo', hhi'⟩ := edgeSample_mem sn h i' j' ch
  rw [abs_le]
  omega

/-- Both gradients in four differences of samples: `p` and `q` along the diagonals, which the gradients share, `x` and
`y` across the centre. -/
theorem sobelGradients_eq_differences (sn : Snapshot) (h : Header) (r c ch : Nat) :
    ∃ p q x y : ℤ, |p| ≤ 255 ∧ |q| ≤ 255 ∧ |x| ≤ 255 ∧ |y| ≤ 255 ∧
      sobelGradient kernelX sn h r c ch = p + q + 2 * x ∧ sobelGradient kernelY sn h r c ch = p - q + 2 * y := by
  refine ⟨edgeSample sn h (r + 1) (c + 1) ch - edgeSample sn h (r - 1) (c - 1) ch,
    edgeSample sn h (r - 1) (c + 1) ch - edgeSample sn h (r + 1) (c - 1) ch,
    edgeSample sn h r (c + 1) ch - edgeSample sn h r (c - 1) ch,
    edgeSample sn h (r + 1) c ch - edgeSample sn h (r - 1) c ch, abs_edgeSample_sub_le _ _ _ _ _ _ _,
    abs_edgeSample_sub_le _ _ _ _ _ _ _, abs_edgeSample_sub_le _ _ _ _ _ _ _, abs_edgeSample_sub_le _ _ _ _ _ _ _,
    ?_, ?_⟩
  · rw [sobelGradient_kernelX]
    ring
  · rw [sobelGradient_kernelY]
    ring

theorem abs_gradient_le {p q x : ℤ} (hp : |p| ≤ 255) (hq : |q| ≤ 255) (hx : |x| ≤ 255) : |p + q + 2 * x| ≤ 1020 := by
  rw [abs_le] at hp hq hx ⊢
  omega

/-- The sum and the difference of two values in `[-255, 255]` are not both large. -/
theorem abs_add_add_abs_sub_le {p q : ℤ} (hp : |p| ≤ 255) (hq : |q| ≤ 255) : |p + q| + |p - q| ≤ 510 := by
  rw [abs_le] at hp hq
  rcases abs_cases (p + q) with ⟨h1, _⟩ | ⟨h1, _⟩ <;> rcases abs_cases (p - q) with ⟨h2, _⟩ | ⟨h2, _⟩ <;> omega

/-- 42_neighborhood_ops.md R158: the diagonals enter both gradients, so the two are not both 1020. -/
theorem sum_of_squares_le {p q x y : ℤ} (hp : |p| ≤ 255) (hq : |q| ≤ 255) (hx : |x| ≤ 255) (hy : |y| ≤ 255) :
    (p + q + 2 * x) * (p + q + 2 * x) + (p - q + 2 * y) * (p - q + 2 * y) ≤ 1300500 := by
  have hsq {z : ℤ} (hz : |z| ≤ 255) : z ^ 2 ≤ 255 ^ 2 := sq_le_sq.2 (by simpa using hz)
  have hmul {z w : ℤ} (hz : |z| ≤ 255) : z * w ≤ 255 * |w| :=
    (le_abs_self _).trans ((abs_mul z w).trans_le (mul_le_mul_of_nonneg_right hz (abs_nonneg w)))
  have hcross : x * (p + q) + y * (p - q) ≤ 255 * 510 := by
    linarith [hmul (w := p + q) hx, hmul (w := p - q) hy, abs_add_add_abs_sub_le hp hq]
  calc (p + q + 2 * x) * (p + q + 2 * x) + (p - q + 2 * y) * (p - q + 2 * y)
      = 2 * p ^ 2 + 2 * q ^ 2 + 4 * x ^ 2 + 4 * y ^ 2 + 4 * (x * (p + q) + y * (p - q)) := by ring
    _ ≤ 1300500 := by linarith [hsq hp, hsq hq, hsq hx, hsq hy]

theorem isqrt_le_of_lt {N m : Nat} (h : N < (m + 1) * (m + 1)) : isqrt N ≤ m := by
  by_contra hgt
  exact absurd ((le_isqrt_iff (m + 1) N).1 (by omega)) h.not_ge

/-- A 3 by 3 image whose first channel is 255 below and to the right of the centre and 255 at the lower left, black
elsewhere (42_neighborhood_ops.md R158). -/
def steepImage : Snapshot :=
  { cmd := 0, arg := 0, inLen := 57, draw := 0
    input := Memory.writeBytes [] 30
      [0, 0, 0, 0, 0, 0, 0, 0, 0,  0, 0, 0, 0, 0, 0, 255, 0, 0,  255, 0, 0, 255, 0, 0, 255, 0, 0] }

/-- Settles O40: the bounds in the four differences, and `steepImage`, which reaches the largest sum of squares. -/
theorem sobelBounds : Obligations.SobelBounds := by
  unfold Obligations.SobelBounds
  refine ⟨?_, steepImage, ⟨30, 3, 3, 24⟩, by decide +kernel, by decide +kernel⟩
  intro sn h r c ch
  obtain ⟨p, q, x, y, hp, hq, hx, hy, hgx, hgy⟩ := sobelGradients_eq_differences sn h r c ch
  have hneg : |-q| ≤ 255 := by rwa [abs_neg]
  have hsum := sum_of_squares_le hp hq hx hy
  rw [hgx, hgy]
  exact ⟨abs_gradient_le hp hq hx, sub_eq_add_neg p q ▸ abs_gradient_le hp hneg hy, hsum, isqrt_le_of_lt (by omega),
    clamp255_le _⟩

end Sys2Proof.Machine
end

/-! ### EDGE on a flat image -/

section
namespace Sys2Proof.Machine

/-- 1 at a position of a row or column of `size` positions, 0 outside. -/
def inside (size : Nat) (x : ℤ) : ℤ := if 0 ≤ x ∧ x < size then 1 else 0

/-- The weights 1, 2, 1 along an axis, outside positions left out (42_neighborhood_ops.md R155). -/
def smoothed (size x : Nat) : ℤ := inside size (x - 1) + 2 * inside size x + inside size (x + 1)

/-- The weights -1, 0, 1 along an axis, outside positions left out (42_neighborhood_ops.md R155). -/
def slope (size x : Nat) : ℤ := inside size (x + 1) - inside size (x - 1)

/-- A flat channel's samples are its value where both positions are inside. -/
theorem edgeSample_of_flat {sn : Snapshot} {h : Header} {v ch : Nat}
    (hflat : ∀ i j, i < h.height → j < h.width → px sn h i j ch = v) (i j : ℤ) :
    edgeSample sn h i j ch = v * (inside h.height i * inside h.width j) := by
  unfold edgeSample inside
  by_cases hin : 0 ≤ i ∧ i < h.height ∧ 0 ≤ j ∧ j < h.width
  · obtain ⟨hi, hi', hj, hj'⟩ := hin
    rw [if_pos ⟨hi, hi', hj, hj'⟩, if_pos ⟨hi, hi'⟩, if_pos ⟨hj, hj'⟩, hflat _ _ (by omega) (by omega)]
    ring
  · rw [if_neg hin]
    split_ifs <;> omega

/-- On a flat channel the gradients are products of one factor for each axis. -/
theorem sobelGradients_of_flat {sn : Snapshot} {h : Header} {v ch : Nat}
    (hflat : ∀ i j, i < h.height → j < h.width → px sn h i j ch = v) (r c : Nat) :
    sobelGradient kernelX sn h r c ch = v * (smoothed h.height r * slope h.width c) ∧
    sobelGradient kernelY sn h r c ch = v * (slope h.height r * smoothed h.width c) := by
  rw [sobelGradient_kernelX, sobelGradient_kernelY]
  simp only [edgeSample_of_flat hflat, smoothed, slope]
  constructor <;> ring

theorem axis_of_border {size x : Nat} (h3 : 3 ≤ size) (hx : x = 0 ∨ x = size - 1) :
    smoothed size x = 3 ∧ slope size x ^ 2 = 1 := by
  unfold smoothed slope inside
  rcases hx with rfl | rfl <;> split_ifs <;> omega

theorem axis_of_interior {size x : Nat} (hlt : x < size) (hx : ¬(x = 0 ∨ x = size - 1)) :
    smoothed size x = 4 ∧ slope size x = 0 := by
  unfold smoothed slope inside
  split_ifs <;> omega

theorem slope_one : slope 1 0 = 0 := rfl

/-- EDGE's value on a flat channel, from the sum of squares of its factors. -/
theorem edgeChannel_of_flat {sn : Snapshot} {h : Header} {v ch : Nat}
    (hflat : ∀ i j, i < h.height → j < h.width → px sn h i j ch = v) {r c m : Nat}
    (hm : (smoothed h.height r * slope h.width c) ^ 2 + (slope h.height r * smoothed h.width c) ^ 2 = m) :
    edgeChannel sn h r c ch = min (Nat.sqrt (m * v ^ 2)) 255 := by
  obtain ⟨hgx, hgy⟩ := sobelGradients_of_flat hflat r c
  have hsum : sobelGradient kernelX sn h r c ch ^ 2 + sobelGradient kernelY sn h r c ch ^ 2 = ((m * v ^ 2 : ℕ) : ℤ) := by
    rw [hgx, hgy]
    push_cast
    rw [← hm]
    ring
  rw [edgeChannel_eq_sqrt, hsum, Int.toNat_natCast]

/-- Settles O41: each axis is at its border or inside it, which gives its two factors. -/
theorem flatImageKeepsItsBlackBorder : Obligations.FlatImageKeepsItsBlackBorder := by
  unfold Obligations.FlatImageKeepsItsBlackBorder
  intro sn h v ch r c hflat hr hc rowEdge colEdge
  have hzero : min (Nat.sqrt (0 * v ^ 2)) 255 = 0 := by simp
  refine ⟨fun h3 w3 => ⟨?_, ?_, ?_⟩, fun h1 w1 => ?_⟩
  · rintro ⟨hrow, hcol⟩
    obtain ⟨hsr, hdr⟩ := axis_of_border h3 hrow
    obtain ⟨hsc, hdc⟩ := axis_of_border w3 hcol
    exact edgeChannel_of_flat hflat (by rw [mul_pow, mul_pow, hsr, hdr, hsc, hdc]; norm_num)
  · have h16 : min (Nat.sqrt (16 * v ^ 2)) 255 = min (4 * v) 255 := by
      rw [show 16 * v ^ 2 = (4 * v) ^ 2 by ring, Nat.sqrt_eq']
    rintro (⟨hrow, hcol⟩ | ⟨hrow, hcol⟩)
    · obtain ⟨hsr, hdr⟩ := axis_of_border h3 hrow
      obtain ⟨hsc, hdc⟩ := axis_of_interior hc hcol
      exact (edgeChannel_of_flat hflat (by rw [mul_pow, mul_pow, hsr, hdr, hsc, hdc]; norm_num)).trans h16
    · obtain ⟨hsr, hdr⟩ := axis_of_interior hr hrow
      obtain ⟨hsc, hdc⟩ := axis_of_border w3 hcol
      exact (edgeChannel_of_flat hflat (by rw [mul_pow, mul_pow, hsr, hdr, hsc, hdc]; norm_num)).trans h16
  · rintro ⟨hrow, hcol⟩
    obtain ⟨hsr, hdr⟩ := axis_of_interior hr hrow
    obtain ⟨hsc, hdc⟩ := axis_of_interior hc hcol
    exact (edgeChannel_of_flat (m := 0) hflat (by rw [hdr, hdc]; norm_num)).trans hzero
  · obtain rfl : r = 0 := by omega
    obtain rfl : c = 0 := by omega
    exact (edgeChannel_of_flat (m := 0) hflat (by rw [h1, w1, slope_one]; norm_num)).trans hzero

end Sys2Proof.Machine
end

/-! ### The values of the channels -/

section
namespace Sys2Proof.Machine

theorem blurChannel_le (k : Nat) (sn : Snapshot) (h : Header) (r c ch : Nat) : blurChannel k sn h r c ch ≤ 255 :=
  Nat.div_le_of_le_mul ((windowSum_le k sn h r c ch).trans_eq (Nat.mul_comm _ _))

/-- Settles O42: one bound for each rule. -/
theorem channelValuesFitAByte : Obligations.ChannelValuesFitAByte := by
  unfold Obligations.ChannelValuesFitAByte
  intro sn h k r c ch _ _ _
  exact ⟨greyValue_le (px_le _ _ _ _ _) (px_le _ _ _ _ _) (px_le _ _ _ _ _), clamp255_le _, Nat.sub_le _ _,
    px_le _ _ _ _ _, blurChannel_le k sn h r c ch, clamp255_le _⟩

end Sys2Proof.Machine
end

/-! # A command computes from its snapshot alone -/

/-! ### The operands two snapshots share -/

section
namespace Sys2Proof.Machine

/-- The snapshots agree on everything a command may read: ARG, IN_LEN and the IN bytes below IN_LEN
(10_state.md R40; 20_memory.md R51). -/
structure Snapshot.Agree (sn₁ sn₂ : Snapshot) : Prop where
  arg : sn₁.arg = sn₂.arg
  inLen : sn₁.inLen = sn₂.inLen
  byte : ∀ a, a < sn₁.inLen.toNat → sn₁.byte a = sn₂.byte a

theorem Snapshot.Agree.le_eq {sn₁ sn₂ : Snapshot} (ha : sn₁.Agree sn₂) {a n : Nat} (h : a + n ≤ sn₁.inLen.toNat) :
    le sn₁ a n = le sn₂ a n :=
  le_congr fun i hi => ha.byte (a + i) (by omega)

/-- The header fields are read only where the length is 30 or more (40_extract_and_codec.md R107, V1). -/
theorem Snapshot.Agree.validate_eq {sn₁ sn₂ : Snapshot} (ha : sn₁.Agree sn₂) : validate sn₁ = validate sn₂ := by
  unfold validate
  rw [← ha.inLen]
  by_cases hshort : sn₁.inLen.toNat < 30
  · simp only [checkHeader, if_pos hshort]
  · have hheader : readHeader sn₁ = readHeader sn₂ := by
      simp only [readHeader, ha.le_eq (show 10 + 4 ≤ _ by omega), ha.le_eq (show 18 + 4 ≤ _ by omega),
        ha.le_eq (show 22 + 4 ≤ _ by omega), ha.le_eq (show 28 + 2 ≤ _ by omega)]
    rw [hheader]

theorem Snapshot.Agree.checkImage_eq {sn₁ sn₂ : Snapshot} (ha : sn₁.Agree sn₂) (capacity : Nat) :
    checkImage capacity sn₁ = checkImage capacity sn₂ := by
  rw [checkImage, checkImage, ha.inLen, ha.validate_eq]

end Sys2Proof.Machine
end

/-! ### The rules of the image commands -/

section
namespace Sys2Proof.Machine

/-- The snapshots hold the same pixels of an image with header `h`. -/
def SamePixels (h : Header) (sn₁ sn₂ : Snapshot) : Prop :=
  ∀ r c ch, r < h.height → c < h.width → ch < bytesPerPixel h → px sn₁ h r c ch = px sn₂ h r c ch

/-- The rule reads nothing but pixels of the image. -/
def Channel.ReadsPixels (f : Channel) : Prop :=
  ∀ (h : Header) (sn₁ sn₂ : Snapshot), 3 ≤ bytesPerPixel h → SamePixels h sn₁ sn₂ →
    ∀ r c ch, r < h.height → c < h.width → ch < bytesPerPixel h → f sn₁ h r c ch = f sn₂ h r c ch

theorem Channel.ReadsPixels.keepAlpha {f : Channel} (hf : f.ReadsPixels) : (keepAlpha f).ReadsPixels := by
  intro h sn₁ sn₂ hp hpx r c ch hr hc hch
  unfold Machine.keepAlpha
  split_ifs with h3
  · exact hpx r c 3 hr hc (h3 ▸ hch)
  · exact hf h sn₁ sn₂ hp hpx r c ch hr hc hch

theorem greyscale_readsPixels : Channel.ReadsPixels greyscaleChannel := by
  intro h sn₁ sn₂ hp hpx r c ch hr hc _
  rw [greyscaleChannel, greyscaleChannel, hpx r c 0 hr hc (by omega), hpx r c 1 hr hc (by omega),
    hpx r c 2 hr hc (by omega)]

theorem sepia_readsPixels : Channel.ReadsPixels sepiaChannel := by
  intro h sn₁ sn₂ hp hpx r c ch hr hc _
  rw [sepiaChannel, sepiaChannel, hpx r c 0 hr hc (by omega), hpx r c 1 hr hc (by omega),
    hpx r c 2 hr hc (by omega)]

theorem invert_readsPixels : Channel.ReadsPixels invertChannel := by
  intro h sn₁ sn₂ _ hpx r c ch hr hc hch
  rw [invertChannel, invertChannel, hpx r c ch hr hc hch]

theorem reflect_readsPixels : Channel.ReadsPixels reflectChannel := by
  intro h sn₁ sn₂ _ hpx r c ch hr hc hch
  exact hpx r (h.width - 1 - c) ch hr (by omega) hch

/-- The window lies in the image (`mem_window_iff`). -/
theorem blur_readsPixels (k : Nat) : Channel.ReadsPixels (blurChannel k) := by
  intro h sn₁ sn₂ _ hpx r c ch hr hc hch
  have hsum : windowSum k sn₁ h r c ch = windowSum k sn₂ h r c ch := by
    simp only [windowSum, sumFrom_eq_sum]
    refine Finset.sum_congr rfl fun i hi => Finset.sum_congr rfl fun j hj => hpx i j ch ?_ ?_ hch
    · exact ((mem_window_iff hr).1 (Finset.mem_Ico.1 hi)).2.2
    · exact ((mem_window_iff hc).1 (Finset.mem_Ico.1 hj)).2.2
  rw [blurChannel, blurChannel, hsum]

/-- A sample outside the image is 0, whatever IN holds (42_neighborhood_ops.md R157). -/
theorem edge_readsPixels : Channel.ReadsPixels edgeChannel := by
  intro h sn₁ sn₂ _ hpx r c ch _ _ hch
  have hsample (i j : ℤ) : edgeSample sn₁ h i j ch = edgeSample sn₂ h i j ch := by
    unfold edgeSample
    split_ifs with hin
    · rw [hpx i.toNat j.toNat ch (by omega) (by omega) hch]
    · rfl
  simp only [edgeChannel, sobelGradient, hsample]

/-- Every image command's rule reads pixels alone. -/
theorem exec_image_readsPixels {i : Instr} (hi : i ∈ imageCommands) :
    ∃ f : Channel, f.ReadsPixels ∧ ∀ s, exec i s = imageCommand f s := by
  simp only [imageCommands, List.mem_cons, List.not_mem_nil, or_false] at hi
  rcases hi with rfl | rfl | rfl | rfl | rfl | rfl | rfl | rfl
  · exact ⟨_, greyscale_readsPixels.keepAlpha, fun _ => rfl⟩
  · exact ⟨_, sepia_readsPixels.keepAlpha, fun _ => rfl⟩
  · exact ⟨_, invert_readsPixels.keepAlpha, fun _ => rfl⟩
  · exact ⟨_, reflect_readsPixels, fun _ => rfl⟩
  · exact ⟨_, (blur_readsPixels 0).keepAlpha, exec_blur_of_le_two (by decide)⟩
  · exact ⟨_, (blur_readsPixels 1).keepAlpha, exec_blur_of_le_two (by decide)⟩
  · exact ⟨_, (blur_readsPixels 2).keepAlpha, exec_blur_of_le_two (by decide)⟩
  · exact ⟨_, edge_readsPixels.keepAlpha, fun _ => rfl⟩

theorem ValidImage.samePixels {capacity : Nat} {sn₁ sn₂ : Snapshot} {h : Header} (v : ValidImage capacity sn₁ h)
    (ha : sn₁.Agree sn₂) : SamePixels h sn₁ sn₂ := by
  intro r c ch hr hc hch
  rw [px, px, ha.byte _ ((pixelOffset_lt hr hc hch).trans_le v.grid_le)]

/-- The packed images agree below the length. -/
theorem packedByte_agree {f : Channel} (hf : f.ReadsPixels) {capacity : Nat} {sn₁ sn₂ : Snapshot} {h : Header}
    (v : ValidImage capacity sn₁ h) (ha : sn₁.Agree sn₂) {a : Nat} (hlt : a < sn₁.inLen.toNat) :
    packedByte f sn₁ h a = packedByte f sn₂ h a := by
  have hp := v.three_le_bytesPerPixel
  rcases offset_cases h a v.grid.1 (by omega) with hheader | ⟨r, c, ch, hr, hc, hch, rfl⟩ | htrailing
  · rw [packedByte_header f sn₁ h a hheader, packedByte_header f sn₂ h a hheader, ha.byte a hlt]
  · rw [packedByte_pixel f sn₁ h hr hc hch, packedByte_pixel f sn₂ h hr hc hch,
      hf h sn₁ sn₂ hp (v.samePixels ha) r c ch hr hc hch]
  · rw [packedByte_trailing f sn₁ h a htrailing, packedByte_trailing f sn₂ h a htrailing, ha.byte a hlt]

end Sys2Proof.Machine
end

/-! ### The outcomes of two runs -/

section
namespace Sys2Proof.Machine

/-- The two runs end in the same code, and on success their results are related. -/
def SameOutcome (results : State → State → Prop) (t₁ t₂ : State) : Prop :=
  t₁.errcode = t₂.errcode ∧ (t₁.errcode = .none → results t₁ t₂)

/-- The header registers of the two states are the same. -/
def SameHeader (t₁ t₂ : State) : Prop :=
  t₁.dataOffset = t₂.dataOffset ∧ t₁.width = t₂.width ∧ t₁.height = t₂.height ∧ t₁.bitDepth = t₂.bitDepth ∧
    t₁.bpp = t₂.bpp

/-- OUT_LEN of the two states is the same, and OUT below a length. -/
def SameOutput (length : Nat) (t₁ t₂ : State) : Prop :=
  t₁.outLen = t₂.outLen ∧ ∀ a, a < length → t₁.output.read a = t₂.output.read a

theorem raiseError_sameOutcome {code : ErrorCode} (hcode : code ≠ .none) (results : State → State → Prop)
    (s₁ s₂ : State) : SameOutcome results (raiseError code s₁) (raiseError code s₂) :=
  ⟨rfl, fun hnone => absurd hnone hcode⟩

theorem imageState_sameOutput {f : Channel} (hf : f.ReadsPixels) {s₁ s₂ : State}
    (ha : s₁.operands.Agree s₂.operands) {h : Header} (v : ValidImage s₁.params.capacity s₁.operands h) :
    SameOutput s₁.operands.inLen.toNat (imageState f h s₁) (imageState f h s₂) := by
  refine ⟨ha.inLen, fun a hlt => ?_⟩
  have hread₁ := storeImage_read f s₁.operands h s₁ a hlt
  have hread₂ := storeImage_read f s₂.operands h s₂ a (ha.inLen ▸ hlt)
  exact hread₁.trans ((congrArg some (packedByte_agree hf v ha hlt)).trans hread₂.symm)

/-- What the image checks decide of a command: their code, or the command's success (`imageCommand_cases`,
`execParse_cases`). -/
def Checked (completion : Host.Outcome State Fault Refusal) (success : Header → State → State) (s : State) : Prop :=
  (∃ code, checkImage s.params.capacity s.operands = .error code ∧ completion = .next (raiseError code s)) ∨
  ∃ h, ValidImage s.params.capacity s.operands h ∧ completion = .next (success h s)

section
variable {s₁ s₂ t₁ t₂ : State} (hcap : s₁.params.capacity = s₂.params.capacity) (ha : s₁.operands.Agree s₂.operands)
include hcap ha

/-- READ_LE makes the same choice of the same three numbers, and its bytes lie below the length. -/
theorem execReadLe_sameOutcome {n : Nat} (h₁ : execReadLe n s₁ = .next t₁) (h₂ : execReadLe n s₂ = .next t₂) :
    SameOutcome (fun u₁ u₂ => u₁.result = u₂.result) t₁ t₂ := by
  unfold execReadLe at h₁ h₂
  rw [← hcap, ← ha.inLen, ← ha.arg] at h₂
  split_ifs at h₁ h₂ with hlegal hlong hout <;> cases h₁ <;> cases h₂
  · exact raiseError_sameOutcome (by decide) _ s₁ s₂
  · exact raiseError_sameOutcome (by decide) _ s₁ s₂
  · exact raiseError_sameOutcome (by decide) _ s₁ s₂
  · exact ⟨rfl, fun _ => congrArg (BitVec.ofNat 32) (ha.le_eq (not_lt.1 hout))⟩

/-- The checks of the two runs end alike: in one code, or in one header. -/
theorem Checked.sameOutcome {completion₁ completion₂ : Host.Outcome State Fault Refusal}
    {success : Header → State → State} {results : State → State → Prop} (hc₁ : Checked completion₁ success s₁)
    (hc₂ : Checked completion₂ success s₂) (h₁ : completion₁ = .next t₁) (h₂ : completion₂ = .next t₂)
    (hsuccess : ∀ h, ValidImage s₁.params.capacity s₁.operands h →
      SameOutcome results (success h s₁) (success h s₂)) : SameOutcome results t₁ t₂ := by
  simp only [Checked, ← checkImage_ok_iff, ← hcap, ← ha.checkImage_eq] at hc₁ hc₂ hsuccess
  rcases hc₁ with ⟨code₁, hcheck₁, hnext₁⟩ | ⟨hd₁, hcheck₁, hnext₁⟩ <;>
    rcases hc₂ with ⟨code₂, hcheck₂, hnext₂⟩ | ⟨hd₂, hcheck₂, hnext₂⟩ <;>
    cases hcheck₁.symm.trans hcheck₂ <;> cases hnext₁.symm.trans h₁ <;> cases hnext₂.symm.trans h₂
  · exact raiseError_sameOutcome (checkImage_error hcheck₁).1 results s₁ s₂
  · exact hsuccess hd₁ hcheck₁

theorem execParse_sameOutcome (h₁ : execParse s₁ = .next t₁) (h₂ : execParse s₂ = .next t₂) :
    SameOutcome SameHeader t₁ t₂ :=
  Checked.sameOutcome (success := fun h s => complete .none (commitHeader h s)) hcap ha (execParse_cases s₁)
    (execParse_cases s₂) h₁ h₂ fun _ _ => ⟨rfl, fun _ => ⟨rfl, rfl, rfl, rfl, rfl⟩⟩

theorem imageCommand_sameOutcome {f : Channel} (hf : f.ReadsPixels) (h₁ : imageCommand f s₁ = .next t₁)
    (h₂ : imageCommand f s₂ = .next t₂) :
    SameOutcome (fun u₁ u₂ => SameHeader u₁ u₂ ∧ SameOutput s₁.operands.inLen.toNat u₁ u₂) t₁ t₂ :=
  Checked.sameOutcome (success := imageState f) hcap ha (imageCommand_cases f s₁) (imageCommand_cases f s₂) h₁ h₂
    fun _ v => ⟨rfl, fun _ => ⟨⟨rfl, rfl, rfl, rfl, rfl⟩, imageState_sameOutput hf ha v⟩⟩

end

/-- The radii BLUR admits are those of `imageCommands` (00_scope.md R2; log entry 14). -/
theorem exec_blur_of_not_mem_imageCommands {k : Nat} (hk : Instr.blur k ∉ imageCommands) (s : State) :
    exec (.blur k) s = .next (raiseError .illegalCommand s) := by
  refine if_neg fun hlegal => hk ?_
  have hle := (legalRadius_iff k).1 hlegal
  interval_cases k <;> decide

/-- Settles O19: READ_LE, PARSE, the image commands and BLUR with an illegal radius, each by its own lemma. -/
theorem outcomeDependsOnTheSnapshotAlone : Obligations.OutcomeDependsOnTheSnapshotAlone := by
  unfold Obligations.OutcomeDependsOnTheSnapshotAlone
  intro i s₁ s₂ t₁ t₂ hcap harg hlen hbyte h₁ h₂
  have ha : s₁.operands.Agree s₂.operands := ⟨harg, hlen, hbyte⟩
  by_cases hi : i ∈ imageCommands
  · obtain ⟨f, hf, hexec⟩ := exec_image_readsPixels hi
    rw [hexec] at h₁ h₂
    obtain ⟨hcode, hresults⟩ := imageCommand_sameOutcome hcap ha hf h₁ h₂
    refine ⟨hcode, fun hnone => ?_⟩
    obtain ⟨hheader, hout⟩ := hresults hnone
    refine ⟨?_, fun _ => hheader, fun _ => hout⟩
    rintro ⟨n, rfl⟩
    simp [imageCommands] at hi
  · cases i with
    | readLe n =>
      obtain ⟨hcode, hresult⟩ := execReadLe_sameOutcome hcap ha h₁ h₂
      exact ⟨hcode, fun hnone => ⟨fun _ => hresult hnone, fun hne => absurd rfl (hne n), fun hmem => absurd hmem hi⟩⟩
    | parse =>
      obtain ⟨hcode, hheader⟩ := execParse_sameOutcome hcap ha h₁ h₂
      exact ⟨hcode, fun hnone => ⟨fun ⟨n, hn⟩ => (by cases hn), fun _ => hheader hnone, fun hmem => absurd hmem hi⟩⟩
    | blur k =>
      cases (exec_blur_of_not_mem_imageCommands hi s₁).symm.trans h₁
      cases (exec_blur_of_not_mem_imageCommands hi s₂).symm.trans h₂
      exact ⟨rfl, fun hnone => (by cases hnone)⟩
    | greyscale | sepia | invert | reflect | edge => exact absurd (by decide) hi

end Sys2Proof.Machine
end

/-! # The registers as the host reads and writes them -/

section
namespace Sys2Proof.Machine

/-- The three flags and the zeros above them (10_state.md R26). -/
theorem statusWord_bits (s : State) : (statusWord s).getLsbD 0 = s.isBusy ∧ (statusWord s).getLsbD 1 = s.done ∧
    (statusWord s).getLsbD 2 = s.err ∧ (statusWord s).extractLsb' 3 29 = 0 := by
  unfold statusWord
  generalize s.err = err, s.done = done, s.isBusy = busy
  revert err done busy
  decide

/-- Settles O46: the bits of `statusWord`. -/
theorem statusReadsTheFlags : Obligations.StatusReadsTheFlags := by
  unfold Obligations.StatusReadsTheFlags
  intro s
  obtain ⟨hbusy, hdone, herr, hzero⟩ := statusWord_bits s
  exact ⟨_, hostAccess_read_regOffset .status s, hbusy, hdone, herr, hzero, isBusy_eq_true s⟩

theorem whenIdle_of_idle {s : State} (hs : s.seq = .idle) (t : State) : whenIdle s t = t :=
  if_neg (by simp [(isBusy_eq_false s).2 hs])

/-- Settles O47: an IDLE block takes the write, and the registers read what they hold. -/
theorem operandRegistersReadBack : Obligations.OperandRegistersReadBack := by
  unfold Obligations.OperandRegistersReadBack
  intro s v hs
  refine ⟨?_, ?_, ?_, hostAccess_read_regOffset .cmd { s with cmd := v },
    hostAccess_read_regOffset .arg { s with arg := v }, hostAccess_read_regOffset .inLen { s with inLen := v }⟩
  · exact (hostAccess_write_regOffset .cmd v s).trans (by rw [writeReg, whenIdle_of_idle hs])
  · exact (hostAccess_write_regOffset .arg v s).trans (by rw [writeReg, whenIdle_of_idle hs])
  · exact (hostAccess_write_regOffset .inLen v s).trans (by rw [writeReg, whenIdle_of_idle hs])

/-- Settles O50: each register by its offset; the codes are compared one by one. -/
theorem resultRegistersReadTheResults : Obligations.ResultRegistersReadTheResults := by
  unfold Obligations.ResultRegistersReadTheResults
  intro s reads
  refine ⟨⟨_, hostAccess_read_regOffset .errcode s, ?_⟩, hostAccess_read_regOffset .result s,
    hostAccess_read_regOffset .dataOffset s, hostAccess_read_regOffset .width s, hostAccess_read_regOffset .height s,
    ⟨_, hostAccess_read_regOffset .bitDepth s, BitVec.toNat_setWidth_of_le (by decide)⟩,
    ⟨_, hostAccess_read_regOffset .bpp s, BitVec.toNat_setWidth_of_le (by decide)⟩,
    hostAccess_read_regOffset .outLen s⟩
  rw [readReg]
  cases s.errcode <;> decide

end Sys2Proof.Machine
end

/-! # The buffers as the host reads and writes them -/

/-! ### IN -/

section
namespace Sys2Proof.Machine

theorem performWrite_input_w8_of_idle {s : State} (hs : s.seq = .idle) (off : Nat) (v : Word) :
    performWrite .input .w8 off v s =
      { s with input := s.input.write off (wordByte v 0), response := .written } := by
  rw [performWrite, writeInput_of_idle hs]
  · rfl
  · simp

theorem performWrite_input_w32_of_idle {s : State} (hs : s.seq = .idle) (off : Nat) (v : Word) :
    performWrite .input .w32 off v s =
      { s with input := s.input.writeBytes off (wordBytes v), response := .written } := by
  rw [performWrite, writeInput_of_idle hs]
  rfl

/-- Byte `i` of a joined word (20_memory.md R56). -/
theorem joinBytes_extractLsb' (f : Nat → Byte) (off : Nat) {i : Nat} (hi : i < 4) :
    (joinBytes (f off) (f (off + 1)) (f (off + 2)) (f (off + 3))).extractLsb' (8 * i) 8 = f (off + i) := by
  obtain ⟨h0, h1, h2, h3⟩ := joinBytes_bytes (f off) (f (off + 1)) (f (off + 2)) (f (off + 3))
  interval_cases i
  exacts [h0, h1, h2, h3]

/-- Of the accesses only a write of IN on an IDLE block changes IN (20_memory.md R52). -/
theorem AccessEffect.write_of_input_ne {s t : State} {a : Access} (h : AccessEffect s a t) (hne : t.input ≠ s.input) :
    s.seq = .idle ∧ ∃ (width : Width) (off : Nat) (v : Word), a = .write .input width off v := by
  cases h with
  | input width off v bytes idle inside => exact ⟨idle, width, off, v, rfl⟩
  | ctrl v => rcases writeCtrl_cases v s with ⟨_, _, hw⟩ | ⟨_, hw⟩ <;> simp [hw] at hne
  | _ => simp at hne

theorem HostEffect.write_of_input_ne {s t : State} {e : HostEvent} (h : HostEffect s e t) (he : e.noReset = true)
    (hne : t.input ≠ s.input) : s.seq = .idle ∧ ∃ (width : Width) (v : Word),
      (∃ off, e = .access (.write .input width off v)) ∨ ∃ addr, e = .bus width addr (some v) := by
  cases h with
  | access a u pending h hevent =>
    obtain ⟨hidle, width, off, v, rfl⟩ := h.write_of_input_ne hne
    rcases hevent with rfl | ⟨width', addr, v', _, _, rfl, _, _⟩ | ⟨_, _, _, hread⟩
    · exact ⟨hidle, width, v, .inl ⟨off, rfl⟩⟩
    · exact ⟨hidle, width', v', .inr ⟨addr, rfl⟩⟩
    · cases hread
  | reset pending hreset => subst hreset; cases he

/-- A step that changes IN and is no reset performs a write of it on an IDLE block. -/
theorem step_write_of_input_ne {s t : State} (ht : step s = .next t) (hr : s.noResetNext = true)
    (hne : t.input ≠ s.input) : ∃ (e : HostEvent) (rest : List HostEvent) (width : Width) (v : Word),
      s.pending = e :: rest ∧ s.seq = .idle ∧
        ((∃ off, e = .access (.write .input width off v)) ∨ ∃ addr, e = .bus width addr (some v)) := by
  have hdue : ∀ sn, s.seq ≠ .busy sn 0 := by
    intro sn hs
    exact hne (completionStep_completed ((step_of_due hs hr).symm.trans ht)).input
  cases hp : s.pending with
  | nil =>
    cases (step_of_no_event hdue hp).symm.trans ht
    exact absurd (tick_input s) hne
  | cons e rest =>
    have he : e.noReset = true := by simpa [State.noResetNext, hp] using hr
    cases (step_of_event hdue hp he).symm.trans ht
    rw [← tick_input s] at hne
    obtain ⟨hidle, width, v, hwrite⟩ := (hostEvent_effect e rest (tick s)).write_of_input_ne he hne
    have hidle' : s.seq = .idle := by rwa [← isBusy_eq_false, ← tick_isBusy, isBusy_eq_false]
    exact ⟨e, rest, width, v, rfl, hidle', hwrite⟩

/-- Settles O51: the writes of an IDLE block by `Memory.write`, the reads by `inByte`, and `step_write_of_input_ne`. -/
theorem hostAccessesOfInput : Obligations.HostAccessesOfInput := by
  unfold Obligations.HostAccessesOfInput
  refine ⟨fun s off v hs hoff => ?_, fun s m v hs hm => ?_, fun s t width off v hb ht => ?_, fun s off hoff => ?_,
    fun s m hm => ?_, fun i s t ht => (exec_completed ht).input, fun a => rfl, fun s t => step_write_of_input_ne⟩
  · refine ⟨_, hostAccess_write_of_busError_none (bufferError_w8_of_lt hoff), ?_⟩
    rw [performWrite_input_w8_of_idle hs]
    exact ⟨rfl, Memory.read_write_same _ _ _, fun a ha => Memory.read_write_ne _ _ ha⟩
  · refine ⟨_, hostAccess_write_of_busError_none (bufferError_w32_of_lt hm), ?_,
      fun i hi => performWrite_input_w32_read hs (4 * m) v hi, fun a ha => ?_⟩ <;>
      rw [performWrite_input_w32_of_idle hs]
    exact Memory.read_writeBytes_outside _ _ _ _ ha
  · exact (eq_performWrite_of_hostAccess ht).trans (performWrite_input_of_busy hb width off v)
  · exact ⟨_, _, hostAccess_read_of_busError_none (bufferError_w8_of_lt hoff), rfl, fun x hx => inByte_of_read hx⟩
  · exact ⟨_, _, hostAccess_read_of_busError_none (bufferError_w32_of_lt hm), rfl,
      fun i x hi hx => (joinBytes_extractLsb' (inByte s) (4 * m) hi).trans (inByte_of_read hx)⟩

end Sys2Proof.Machine
end

/-! ### OUT -/

section
namespace Sys2Proof.Machine

theorem performWrite_output (width : Width) (off : Nat) (v : Word) (s : State) :
    performWrite .output width off v s = { s with response := .written } := by
  cases width <;> rfl

/-- From OUT_LEN on, and everywhere while BUSY, OUT reads as a free value (20_memory.md R53; log entry 3). -/
theorem outByte_eq_freeByte {s : State} {a : Nat} (h : s.outLen.toNat ≤ a ∨ s.isBusy = true) :
    outByte s a = Config.freeByte s.draws a := by
  refine if_neg ?_
  rcases h with h | h
  · simp [h.not_gt]
  · simp [h]

/-- Settles O52: OUT's accesses are IN's, with `outByte` for the bytes and no effect of a write. -/
theorem hostAccessesOfOutput : Obligations.HostAccessesOfOutput := by
  unfold Obligations.HostAccessesOfOutput
  refine ⟨fun s t width off v ht => ?_, fun _ _ _ => rfl, fun s off hoff => ?_, fun s m hm => ?_⟩
  · exact (eq_performWrite_of_hostAccess ht).trans (performWrite_output width off v s)
  · exact ⟨_, hostAccess_read_of_busError_none (bufferError_w8_of_lt hoff), fun x hs hlt hx => outByte_of_read hs hlt hx,
      outByte_eq_freeByte⟩
  · refine ⟨_, hostAccess_read_of_busError_none (bufferError_w32_of_lt hm), fun i hi => ?_⟩
    rw [joinBytes_extractLsb' (outByte s) (4 * m) hi]
    exact ⟨fun x hs hlt hx => outByte_of_read hs hlt hx, outByte_eq_freeByte⟩

end Sys2Proof.Machine
end

/-! ### Bus errors -/

section
namespace Sys2Proof.Machine

/-- The accesses that 20_memory.md R55 names, and log entry 6, in the statement's words. -/
theorem busError_isSome_iff (capacity : Nat) (space : Space) (width : Width) (off : Nat) :
    (busError capacity space width off).isSome = true ↔
      (width = .w32 ∧ off % 4 ≠ 0) ∨ (width = .w8 ∧ space = .reg) ∨ width = .w16 ∨
      (space = .reg ∧ 0x40 ≤ off) ∨ (space ≠ .reg ∧ capacity ≤ off) ∨
      (space ≠ .reg ∧ width = .w32 ∧ capacity ≤ off + 3) := by
  cases space with
  | reg =>
    rw [busError, regError_isSome]
    cases width <;> simp
  | input | output =>
    rw [busError, bufferError_isSome]
    cases width with
    | w8 | w16 => simp
    | w32 =>
      simp only [reduceCtorEq, ne_eq, not_false_eq_true, true_and, false_and, false_or]
      omega

theorem exists_read_error_iff (s : State) (space : Space) (width : Width) (off : Nat) :
    (∃ e, hostAccess (.read space width off) s = .error (.busError e)) ↔
      (busError s.params.capacity space width off).isSome = true := by
  cases hb : busError s.params.capacity space width off <;> simp [hostAccess, hb]

theorem exists_write_error_iff (s : State) (space : Space) (width : Width) (off : Nat) (v : Word) :
    (∃ e, hostAccess (.write space width off v) s = .error (.busError e)) ↔
      (busError s.params.capacity space width off).isSome = true := by
  cases hb : busError s.params.capacity space width off <;> simp [hostAccess, hb]

/-- Settles O54: `busError_isSome_iff`, for a read and for a write. -/
theorem busErrorsAreExactlyThese : Obligations.BusErrorsAreExactlyThese := by
  unfold Obligations.BusErrorsAreExactlyThese
  intro s space width off v bad
  have hbad : (busError s.params.capacity space width off).isSome = true ↔ bad := busError_isSome_iff _ _ _ _
  refine ⟨(exists_read_error_iff s space width off).trans hbad, (exists_write_error_iff s space width off v).trans hbad,
    fun hgood => ?_⟩
  have hnone : busError s.params.capacity space width off = none := by
    rwa [← hbad, Option.isSome_iff_ne_none, not_not] at hgood
  exact ⟨⟨_, hostAccess_read_of_busError_none hnone⟩, ⟨_, hostAccess_write_of_busError_none hnone⟩⟩

/-- Of the state only the parameters decide whether an access is a bus error. -/
theorem hostAccess_error_of_params_eq {a : Access} {s s' : State} {e : BusError} (hparams : s'.params = s.params)
    (h : hostAccess a s = .error (.busError e)) : hostAccess a s' = .error (.busError e) := by
  cases a with
  | read space width off =>
    cases hb : busError s.params.capacity space width off <;> simp_all [hostAccess]
  | write space width off v =>
    cases hb : busError s.params.capacity space width off <;> simp_all [hostAccess]

theorem answerAccess_of_error {a : Access} {s : State} {e : BusError} (h : hostAccess a s = .error (.busError e)) :
    answerAccess a s = { s with response := .error e } := by
  simp only [answerAccess, h, respond]

/-- The step that performs a faulting access lets time pass and records the error, and nothing else. -/
theorem step_of_bus_error {s : State} {a : Access} {rest : List HostEvent} {e : BusError}
    (hdue : ∀ sn, s.seq ≠ .busy sn 0) (hp : s.pending = .access a :: rest)
    (he : hostAccess a s = .error (.busError e)) :
    step s = .next { tick s with pending := rest, response := .error e } := by
  rw [step_of_event hdue hp rfl, hostEvent, answerAccess_pending,
    answerAccess_of_error (hostAccess_error_of_params_eq (tick_params s) he)]

/-- Settles O55: `step_of_bus_error` in both phases. -/
theorem busErrorChangesNoState : Obligations.BusErrorChangesNoState := by
  unfold Obligations.BusErrorChangesNoState
  intro s a rest e hp he
  refine ⟨fun hs => ?_, fun sn wait hs => ?_, rfl⟩
  · rw [step_of_bus_error (by simp [hs]) hp he, tick_of_idle s hs]
  · rw [step_of_bus_error (by simp [hs]) hp he, tick_of_busy s sn wait hs]

end Sys2Proof.Machine
end

/-! ### Reads -/

section
namespace Sys2Proof.Machine

/-- A read answers on the bus and may draw; there is no other case of `AccessEffect` for it. -/
theorem read_eq_answered {s t : State} {space : Space} {width : Width} {off : Nat}
    (h : hostAccess (.read space width off) s = .ok t) : t = { s with response := t.response, draws := t.draws } := by
  cases hostAccess_effect h
  rfl

theorem readReg_respond (r : Response) (s : State) (reg : Reg) : readReg (respond r s) reg = readReg s reg := by
  cases reg <;> rfl

theorem read_reg_again {s t : State} {width : Width} {off : Nat} (h : hostAccess (.read .reg width off) s = .ok t) :
    hostAccess (.read .reg width off) t = .ok t := by
  cases hb : busError s.params.capacity .reg width off with
  | some e => simp [hostAccess, hb] at h
  | none =>
    cases (hostAccess_read_of_busError_none hb).symm.trans h
    rw [hostAccess_read_of_busError_none (s := performRead .reg width off s) hb, performRead, performRead,
      readReg_respond]
    rfl

/-- Settles O56: `read_eq_answered`, and a register reads the same after it was read. -/
theorem readsHaveNoSideEffect : Obligations.ReadsHaveNoSideEffect := by
  unfold Obligations.ReadsHaveNoSideEffect
  intro s t space width off h
  have ht := read_eq_answered h
  refine ⟨ht, ?_, fun a => ?_⟩
  · rintro rfl
    exact ⟨t, read_reg_again h, rfl⟩
  · rw [ht]
    exact ⟨rfl, rfl⟩

end Sys2Proof.Machine
end

/-! # 00_scope.md: the windows on the bus -/

section
namespace Sys2Proof.Machine

/-- No address lies in two windows of legal parameters (00_scope.md R3). -/
theorem inWindow_unique {p : Config.Params} (hp : p.legal = true) {space space' : Space} {addr : Nat}
    (h : inWindow p space addr = true) (h' : inWindow p space' addr = true) : space = space' := by
  simp only [Config.Params.legal, Config.apart, Bool.and_eq_true, Bool.or_eq_true, decide_eq_true_eq] at hp
  obtain ⟨⟨⟨-, hin⟩, hout⟩, hbuffers⟩ := hp
  rw [inWindow_iff] at h h'
  cases space <;> cases space' <;> simp only [windowBase, windowSize, reduceCtorEq] at h h' ⊢ <;> omega

/-- `locate` names the window an address lies in, with the offset from its base. -/
theorem locate_of_inWindow {p : Config.Params} (hp : p.legal = true) {space : Space} {addr : Nat}
    (h : inWindow p space addr = true) : locate p addr = some (space, addr - windowBase p space) := by
  have hunique {space' : Space} (h' : inWindow p space' addr = true) : space' = space := inWindow_unique hp h' h
  unfold locate
  split_ifs with hreg hin hout
  · obtain rfl := hunique hreg; rfl
  · obtain rfl := hunique hin; rfl
  · obtain rfl := hunique hout; rfl
  · cases space <;> contradiction

theorem locate_eq_none_iff (p : Config.Params) (addr : Nat) :
    locate p addr = none ↔ ∀ space, ¬inWindow p space addr = true := by
  constructor
  · intro h space
    unfold locate at h
    split_ifs at h
    cases space <;> assumption
  · intro h
    rw [locate, if_neg (h .reg), if_neg (h .input), if_neg (h .output)]

/-- Settles O57: `locate_of_inWindow` and `locate_eq_none_iff`. -/
theorem windowsLocateTheirOffsets : Obligations.WindowsLocateTheirOffsets := by
  unfold Obligations.WindowsLocateTheirOffsets
  intro p hp
  have hlocate (space : Space) (off : Nat) (hoff : off < windowSize p space) :
      locate p (windowBase p space + off) = some (space, off) := by
    rw [locate_of_inWindow hp ((inWindow_iff p space _).2 ⟨by omega, by omega⟩), Nat.add_sub_cancel_left]
  refine ⟨hlocate, fun addr => ?_, fun s space width off v hs hoff => ?_⟩
  · rw [locate_eq_none_iff]
    refine forall_congr' fun space => ?_
    rw [inWindow_iff]
    omega
  · subst hs
    simp only [busAccess, hlocate space off hoff, and_self]

end Sys2Proof.Machine
end
